-- ==== Sys2Proof/Word.lean ====
section
/-! DEFINITION. The word types of the jhip8 core (00_scope.md R4, R5): bits are numbered from 0, the least
significant. Everything that computes on them (fields, byte order, extension) stands in Decode.lean and under
Machine/. -/

namespace Sys2Proof

/-- An 8-bit value: a general register, a timer, a memory byte, the immediate nn. -/
abbrev Byte := BitVec 8

/-- A 16-bit value: I, PC, a return address, an instruction word. -/
abbrev Word := BitVec 16

/-- A 4-bit field: a register index x or y, the immediate n. -/
abbrev Nibble := BitVec 4

/-- The 12-bit address field nnn. -/
abbrev Addr12 := BitVec 12

end Sys2Proof
end

