-- ==== Sys2Proof/Config.lean ====
section
/-! DEFINITION. What an implementation fixes (00_scope.md R4) and the free values. A parameter with a spec default or two
admitted values is a field of `Params`; the step reads the parameters from the state (10_state.md R28: they are parameters
of the step), so a statement about every state is a statement about every parameter value. -/

namespace Sys2Proof

/-- MEM_SIZE, one of the two admitted sizes (R4, R32; 92_eei_decisions.md D1). -/
inductive MemSize where
  | bytes4095
  | bytes4096
deriving DecidableEq, Repr, Inhabited

/-- The number of bytes of memory (R32). -/
def MemSize.toNat : MemSize → Nat
  | .bytes4095 => 4095
  | .bytes4096 => 4096

/-- SOUND_TIMER_SRC: which field of an FX18 word names the register (44_timers_random.md R91; D13, OPEN). -/
inductive SoundTimerSrc where
  | nField
  | xField
deriving DecidableEq, Repr, Inhabited

/-- AWAIT_KEY_MODE: how FX0A resolves (45_keypad.md R94; D12). -/
inductive AwaitKeyMode where
  | release
  | level
deriving DecidableEq, Repr, Inhabited

/-- KEY_INDEX_POLICY: what EX9E and EXA1 do with a key index above 15 (45_keypad.md R92; D14). -/
inductive KeyIndexPolicy where
  | fault
  | notPressed
deriving DecidableEq, Repr, Inhabited

/-- FONT: 16 glyphs of 5 bytes (20_memory.md R38, R39). -/
abbrev Font := Vector (Vector Byte 5) 16

/-- The parameters of the step (R4, R28). -/
structure Params where
  memSize        : MemSize
  font           : Font
  /-- `none`: left OPEN, as the spec leaves it; see `soundSource` in Machine/Operands.lean -/
  soundTimerSrc  : Option SoundTimerSrc
  awaitKeyMode   : AwaitKeyMode
  keyIndexPolicy : KeyIndexPolicy
deriving DecidableEq, Repr

namespace Config

/-- PROG_BASE: where the program is loaded and the entry point (R4). -/
def progBase : Nat := 0x200

/-- FONT_SIZE: the font occupies 0x000 to 0x04F (R4, R37). -/
def fontSize : Nat := 80

/-- STACK_DEPTH (R4). -/
def stackDepth : Nat := 16

/-- The default font of 20_memory.md R38. PRESUMED: the spec itself marks the byte values as general knowledge (log entry 2). -/
def defaultFont : Font :=
  #v[#v[0xF0, 0x90, 0x90, 0x90, 0xF0], #v[0x20, 0x60, 0x20, 0x20, 0x70],
     #v[0xF0, 0x10, 0xF0, 0x80, 0xF0], #v[0xF0, 0x10, 0xF0, 0x10, 0xF0],
     #v[0x90, 0x90, 0xF0, 0x10, 0x10], #v[0xF0, 0x80, 0xF0, 0x10, 0xF0],
     #v[0xF0, 0x80, 0xF0, 0x90, 0xF0], #v[0xF0, 0x10, 0x20, 0x40, 0x40],
     #v[0xF0, 0x90, 0xF0, 0x90, 0xF0], #v[0xF0, 0x90, 0xF0, 0x10, 0xF0],
     #v[0xF0, 0x90, 0xF0, 0x90, 0x90], #v[0xE0, 0x90, 0xE0, 0x90, 0xE0],
     #v[0xF0, 0x80, 0x80, 0x80, 0xF0], #v[0xE0, 0x90, 0x90, 0x90, 0xE0],
     #v[0xF0, 0x80, 0xF0, 0x80, 0xF0], #v[0xF0, 0x80, 0xF0, 0x80, 0x80]]

/-- What SOUND_TIMER_SRC is where it is left OPEN, as this spec leaves it (R4, R91; D13): a free value (log entry 3). -/
opaque soundTimerSrc : SoundTimerSrc

/-- RAND8: the n-th random byte the host's generator returns, unconstrained (44_timers_random.md R88, 60_exceptions.md R111;
D22): a free value (log entry 4). -/
opaque rand8 : Nat → Byte

/-- The parameter values of this spec (R4): its defaults, and SOUND_TIMER_SRC left OPEN. -/
def params : Params where
  memSize        := .bytes4096
  font           := defaultFont
  soundTimerSrc  := none
  awaitKeyMode   := .release
  keyIndexPolicy := .fault

end Config

end Sys2Proof
end

