-- ==== Sys2Proof/Syntax.lean ====
section
/-! DEFINITION. The instructions: one constructor per row of spec/opcode_table.json, with every operand field the row's
format leaves free (30_encoding.md R51, R59). Each operand has exactly its field's width (R50). -/

namespace Sys2Proof

inductive Instr where
  /-- `00E0` CLS (R61) -/
  | cls
  /-- `00EE` RET (R63) -/
  | ret
  /-- `1NNN` JP (R64) -/
  | jp (nnn : Addr12)
  /-- `2NNN` CALL (R65) -/
  | call (nnn : Addr12)
  /-- `3XNN` SE_IMM (R67) -/
  | seImm (x : Nibble) (nn : Byte)
  /-- `4XNN` SNE_IMM (R68) -/
  | sneImm (x : Nibble) (nn : Byte)
  /-- `5XY0` SE_REG (R69) -/
  | seReg (x y : Nibble)
  /-- `6XNN` LD_IMM (R71) -/
  | ldImm (x : Nibble) (nn : Byte)
  /-- `7XNN` ADD_IMM (R72) -/
  | addImm (x : Nibble) (nn : Byte)
  /-- `8XY0` LD_REG (R73) -/
  | ldReg (x y : Nibble)
  /-- `8XY1` OR (R74) -/
  | or (x y : Nibble)
  /-- `8XY2` AND (R75) -/
  | and (x y : Nibble)
  /-- `8XY3` XOR (R76) -/
  | xor (x y : Nibble)
  /-- `8XY4` ADD_REG (R77) -/
  | addReg (x y : Nibble)
  /-- `8XY5` SUB (R78) -/
  | sub (x y : Nibble)
  /-- `8XY6` SHR (R79); y is decoded and ignored (R51, R59) -/
  | shr (x y : Nibble)
  /-- `8XY7` SUBN (R80) -/
  | subn (x y : Nibble)
  /-- `8XYE` SHL (R81); y is decoded and ignored (R51, R59) -/
  | shl (x y : Nibble)
  /-- `9XY0` SNE_REG (R70) -/
  | sneReg (x y : Nibble)
  /-- `ANNN` LD_I (R82) -/
  | ldI (nnn : Addr12)
  /-- `BNNN` JP_V0 (R66) -/
  | jpV0 (nnn : Addr12)
  /-- `CXNN` RND (R88) -/
  | rnd (x : Nibble) (nn : Byte)
  /-- `DXYN` DRW (R62) -/
  | drw (x y n : Nibble)
  /-- `EX9E` SKP (R92) -/
  | skp (x : Nibble)
  /-- `EXA1` SKNP (R93) -/
  | sknp (x : Nibble)
  /-- `FX07` LD_VX_DT (R89) -/
  | ldVxDt (x : Nibble)
  /-- `FX0A` LD_VX_K (R94) -/
  | ldVxK (x : Nibble)
  /-- `FX15` LD_DT_VX (R90) -/
  | ldDtVx (x : Nibble)
  /-- `FX18` LD_ST_VX (R91) -/
  | ldStVx (x : Nibble)
  /-- `FX1E` ADD_I_VX (R83) -/
  | addIVx (x : Nibble)
  /-- `FX29` LD_F_VX (R84) -/
  | ldFVx (x : Nibble)
  /-- `FX33` LD_B_VX (R85) -/
  | ldBVx (x : Nibble)
  /-- `FX55` LD_MEM_VX (R86) -/
  | ldMemVx (x : Nibble)
  /-- `FX65` LD_VX_MEM (R87) -/
  | ldVxMem (x : Nibble)
deriving DecidableEq, Repr

end Sys2Proof
end

