-- ==== Sys2Proof/WellFormed.lean ====
section
/-! DEFINITION. What is well-formed before it reaches the machine. Every operand of `Instr` has its field's width, so no term
of `Instr` is ill-formed; what can be ill-formed is an instruction WORD (30_encoding.md R54) and a ROM that does not fit
(70_reset_and_hazards.md R117). The word check is the opcode table's own list of match and mask, written apart from the
decoder of R53, so that the two can be held against each other. -/

namespace Sys2Proof

/-- One row of the opcode table: a word selects it when its bits under `mask` are `bits`. -/
structure OpcodeRow where
  bits : Word
  mask : Word
deriving DecidableEq, Repr

namespace OpcodeRow

/-- Format Z: the whole word is fixed (R51). -/
def fixedWords : List OpcodeRow := [⟨0x00E0, 0xFFFF⟩, ⟨0x00EE, 0xFFFF⟩]

/-- Formats A, XB and XYN: only the op nibble is fixed (R51). -/
def byOp : List OpcodeRow :=
  [⟨0x1000, 0xF000⟩, ⟨0x2000, 0xF000⟩, ⟨0x3000, 0xF000⟩, ⟨0x4000, 0xF000⟩, ⟨0x6000, 0xF000⟩, ⟨0x7000, 0xF000⟩,
   ⟨0xA000, 0xF000⟩, ⟨0xB000, 0xF000⟩, ⟨0xC000, 0xF000⟩, ⟨0xD000, 0xF000⟩]

/-- Format XY: op and n are fixed (R51). -/
def byOpAndN : List OpcodeRow :=
  [⟨0x5000, 0xF00F⟩, ⟨0x9000, 0xF00F⟩, ⟨0x8000, 0xF00F⟩, ⟨0x8001, 0xF00F⟩, ⟨0x8002, 0xF00F⟩, ⟨0x8003, 0xF00F⟩,
   ⟨0x8004, 0xF00F⟩, ⟨0x8005, 0xF00F⟩, ⟨0x8006, 0xF00F⟩, ⟨0x8007, 0xF00F⟩, ⟨0x800E, 0xF00F⟩]

/-- Format X: op and nn are fixed (R51). -/
def byOpAndNN : List OpcodeRow :=
  [⟨0xE09E, 0xF0FF⟩, ⟨0xE0A1, 0xF0FF⟩, ⟨0xF007, 0xF0FF⟩, ⟨0xF00A, 0xF0FF⟩, ⟨0xF015, 0xF0FF⟩, ⟨0xF018, 0xF0FF⟩,
   ⟨0xF01E, 0xF0FF⟩, ⟨0xF029, 0xF0FF⟩, ⟨0xF033, 0xF0FF⟩, ⟨0xF055, 0xF0FF⟩, ⟨0xF065, 0xF0FF⟩]

/-- The 34 rows of spec/opcode_table.json. -/
def table : List OpcodeRow := fixedWords ++ byOp ++ byOpAndN ++ byOpAndNN

/-- The word selects this row. -/
def selects (r : OpcodeRow) (w : Word) : Bool := w &&& r.mask == r.bits

end OpcodeRow

/-- A word is a valid encoding: some row of the opcode table selects it (R54). -/
def wellFormedWord (w : Word) : Bool := OpcodeRow.table.any (·.selects w)

/-- A ROM fits between PROG_BASE and the end of memory (R116, R117). -/
def romFits (size : MemSize) (rom : List Byte) : Bool := decide (rom.length ≤ size.toNat - Config.progBase)

end Sys2Proof
end

