-- ==== Sys2Proof/Decode.lean ====
section
/-! DEFINITION. From words to instructions and back: the fields (30_encoding.md R49, R50), the decoder (R53), the encoder
from the same formats (R51, R52), and the byte order of an instruction word (20_memory.md R40). -/

namespace Sys2Proof

/-! ## Fields (R49) -/

/-- op = w[15:12] -/
def opField (w : Word) : Nibble := w.extractLsb' 12 4

/-- x = w[11:8] -/
def xField (w : Word) : Nibble := w.extractLsb' 8 4

/-- y = w[7:4] -/
def yField (w : Word) : Nibble := w.extractLsb' 4 4

/-- n = w[3:0] -/
def nField (w : Word) : Nibble := w.extractLsb' 0 4

/-- nn = w[7:0] -/
def nnField (w : Word) : Byte := w.extractLsb' 0 8

/-- nnn = w[11:0] -/
def nnnField (w : Word) : Addr12 := w.extractLsb' 0 12

/-! ## Decoding (R53) -/

/-- Op nibble 0: the whole word decides. -/
def decodeZero (w : Word) : Option Instr :=
  if w = 0x00E0 then some .cls
  else if w = 0x00EE then some .ret
  else none

/-- Op nibble 8: n decides. -/
def decodeArith (x y n : Nibble) : Option Instr :=
  match n.toNat with
  | 0x0 => some (.ldReg x y)
  | 0x1 => some (.or x y)
  | 0x2 => some (.and x y)
  | 0x3 => some (.xor x y)
  | 0x4 => some (.addReg x y)
  | 0x5 => some (.sub x y)
  | 0x6 => some (.shr x y)
  | 0x7 => some (.subn x y)
  | 0xE => some (.shl x y)
  | _   => none

/-- Op nibble E: nn decides. -/
def decodeKey (x : Nibble) (nn : Byte) : Option Instr :=
  match nn.toNat with
  | 0x9E => some (.skp x)
  | 0xA1 => some (.sknp x)
  | _    => none

/-- Op nibble F: nn decides. -/
def decodeMisc (x : Nibble) (nn : Byte) : Option Instr :=
  match nn.toNat with
  | 0x07 => some (.ldVxDt x)
  | 0x0A => some (.ldVxK x)
  | 0x15 => some (.ldDtVx x)
  | 0x18 => some (.ldStVx x)
  | 0x1E => some (.addIVx x)
  | 0x29 => some (.ldFVx x)
  | 0x33 => some (.ldBVx x)
  | 0x55 => some (.ldMemVx x)
  | 0x65 => some (.ldVxMem x)
  | _    => none

/-- Decode(w) of R53; `none` is its Invalid. -/
def decodeWord (w : Word) : Option Instr :=
  match (opField w).toNat with
  | 0x0 => decodeZero w
  | 0x1 => some (.jp (nnnField w))
  | 0x2 => some (.call (nnnField w))
  | 0x3 => some (.seImm (xField w) (nnField w))
  | 0x4 => some (.sneImm (xField w) (nnField w))
  | 0x5 => if nField w = 0 then some (.seReg (xField w) (yField w)) else none
  | 0x6 => some (.ldImm (xField w) (nnField w))
  | 0x7 => some (.addImm (xField w) (nnField w))
  | 0x8 => decodeArith (xField w) (yField w) (nField w)
  | 0x9 => if nField w = 0 then some (.sneReg (xField w) (yField w)) else none
  | 0xA => some (.ldI (nnnField w))
  | 0xB => some (.jpV0 (nnnField w))
  | 0xC => some (.rnd (xField w) (nnField w))
  | 0xD => some (.drw (xField w) (yField w) (nField w))
  | 0xE => decodeKey (xField w) (nnField w)
  | _   => decodeMisc (xField w) (nnField w)

/-- Why bytes are no instruction. -/
inductive DecodeError where
  /-- fewer than the two bytes of a word (R48) -/
  | truncated
  /-- the word is one of the invalid encodings of R54 -/
  | invalid (word : Word)
deriving DecidableEq, Repr

/-- The word two bytes in memory order make: the byte at the lower address is bits 15-8 (20_memory.md R40). -/
def wordOfBytes (hi lo : Byte) : Word := BitVec.ofNat 16 (hi.toNat * 0x100 + lo.toNat)

/-- Decode the first instruction of a byte sequence in memory order, and give the bytes after it (R48). -/
def decodeBytes : List Byte → Except DecodeError (Instr × List Byte)
  | hi :: lo :: rest =>
    match decodeWord (wordOfBytes hi lo) with
    | some i => .ok (i, rest)
    | none   => .error (.invalid (wordOfBytes hi lo))
  | _ => .error .truncated

/-! ## Encoding (R51, R52) -/

/-- Format A: op, nnn. -/
def formatA (op : Nibble) (nnn : Addr12) : Word := BitVec.ofNat 16 (op.toNat * 0x1000 + nnn.toNat)

/-- Formats XB and X: op, x, nn. -/
def formatXB (op x : Nibble) (nn : Byte) : Word :=
  BitVec.ofNat 16 (op.toNat * 0x1000 + x.toNat * 0x100 + nn.toNat)

/-- Formats XY and XYN: op, x, y, n. -/
def formatXYN (op x y n : Nibble) : Word :=
  BitVec.ofNat 16 (op.toNat * 0x1000 + x.toNat * 0x100 + y.toNat * 0x10 + n.toNat)

/-- The word of an instruction. Every instruction has exactly one, since `Instr` keeps every free field of its format. -/
def encode : Instr → Word
  | .cls         => 0x00E0
  | .ret         => 0x00EE
  | .jp nnn      => formatA 0x1 nnn
  | .call nnn    => formatA 0x2 nnn
  | .seImm x nn  => formatXB 0x3 x nn
  | .sneImm x nn => formatXB 0x4 x nn
  | .seReg x y   => formatXYN 0x5 x y 0x0
  | .ldImm x nn  => formatXB 0x6 x nn
  | .addImm x nn => formatXB 0x7 x nn
  | .ldReg x y   => formatXYN 0x8 x y 0x0
  | .or x y      => formatXYN 0x8 x y 0x1
  | .and x y     => formatXYN 0x8 x y 0x2
  | .xor x y     => formatXYN 0x8 x y 0x3
  | .addReg x y  => formatXYN 0x8 x y 0x4
  | .sub x y     => formatXYN 0x8 x y 0x5
  | .shr x y     => formatXYN 0x8 x y 0x6
  | .subn x y    => formatXYN 0x8 x y 0x7
  | .shl x y     => formatXYN 0x8 x y 0xE
  | .sneReg x y  => formatXYN 0x9 x y 0x0
  | .ldI nnn     => formatA 0xA nnn
  | .jpV0 nnn    => formatA 0xB nnn
  | .rnd x nn    => formatXB 0xC x nn
  | .drw x y n   => formatXYN 0xD x y n
  | .skp x       => formatXB 0xE x 0x9E
  | .sknp x      => formatXB 0xE x 0xA1
  | .ldVxDt x    => formatXB 0xF x 0x07
  | .ldVxK x     => formatXB 0xF x 0x0A
  | .ldDtVx x    => formatXB 0xF x 0x15
  | .ldStVx x    => formatXB 0xF x 0x18
  | .addIVx x    => formatXB 0xF x 0x1E
  | .ldFVx x     => formatXB 0xF x 0x29
  | .ldBVx x     => formatXB 0xF x 0x33
  | .ldMemVx x   => formatXB 0xF x 0x55
  | .ldVxMem x   => formatXB 0xF x 0x65

/-- The high byte of a word, at the lower address (R40). -/
def highByte (w : Word) : Byte := w.extractLsb' 8 8

/-- The low byte of a word, at the higher address (R40). -/
def lowByte (w : Word) : Byte := w.extractLsb' 0 8

/-- The bytes of an instruction in memory order (R40). -/
def encodeBytes (i : Instr) : List Byte := [highByte (encode i), lowByte (encode i)]

/-- The instruction word whose bits the opcode table numbers as `w`, of which it gives `nbits` (all 16 here; bits above are 0). -/
def tableWord (nbits w : Nat) : Word := BitVec.ofNat 16 (w % 2 ^ nbits)

/-- What the decoder reads from an instruction whose bits are `w`, numbered as spec/opcode_table.json numbers them: the word
laid out big-endian and decoded as bytes. -/
def decodeTableWord (nbits w : Nat) : Option Instr :=
  match decodeBytes [highByte (tableWord nbits w), lowByte (tableWord nbits w)] with
  | .ok (i, _) => some i
  | .error _   => none

end Sys2Proof
end

