-- ==== Sys2Proof/Machine/State.lean ====
section
/-! DEFINITION. The state of the block as plain data (10_state.md R13), its value after reset (R30), and the reasons a step can
stop. -/

namespace Sys2Proof.Machine

/-- The five faults of the block (60_exceptions.md R95), the `code` of a fault record. The spec says exactly what a fault does (R97),
so taking one is a NEXT state whose RUN is Halted and holds this name; no step of the model answers `Host.Outcome.fault` (log
entry 5). -/
inductive Fault where
  /-- Code 1: raised by the step when the fetched word has no meaning (R54). Safe: the spec's own fault. -/
  | invalidInstruction
  /-- Code 2: raised by the fetch, DXYN, FX33, FX55, FX65 and Initialize at an address past the end of memory (R33, R117). Safe: the
  spec's own fault. -/
  | memoryOverflow
  /-- Code 3: raised by 2NNN with 16 return addresses held (R65). Safe: the spec's own fault. -/
  | stackOverflow
  /-- Code 4: raised by 00EE with none held (R63). Safe: the spec's own fault. -/
  | stackUnderflow
  /-- Code 5: raised by EX9E and EXA1 at a key index above 15 under KEY_INDEX_POLICY = fault (R92, R93). Safe: the spec's own fault. -/
  | keyIndexOutOfRange
deriving DecidableEq, Repr

/-- The numeric code of a fault (R95). -/
def Fault.code : Fault → Nat
  | .invalidInstruction => 1
  | .memoryOverflow     => 2
  | .stackOverflow      => 3
  | .stackUnderflow     => 4
  | .keyIndexOutOfRange => 5

/-- Why the model gives an instruction no meaning. -/
inductive Refusal where
  /-- Raised only by an arm of `exec` whose instruction has no meaning yet. Safe: nothing is claimed of it. No arm raises it now. -/
  | notModelled (mnemonic : String)
deriving DecidableEq, Repr

/-- The record a fault leaves for the host (60_exceptions.md R96). -/
structure FaultRecord where
  /-- which fault (R95) -/
  code : Fault
  /-- PC of the faulting step -/
  pc   : Word
  /-- the fetched word; none when the fetch itself faulted, or at Initialize -/
  word : Option Word
  /-- the address of a MemoryOverflow, the key index of a KeyIndexOutOfRange -/
  info : Option Word
deriving DecidableEq, Repr

/-- RUN (10_state.md R26). -/
inductive Run where
  | running
  | halted (record : FaultRecord)
deriving DecidableEq, Repr

/-- AWAIT, the await-key state machine of FX0A (10_state.md R25). -/
inductive Await where
  | idle
  | keyObserved (k : Fin 16)
deriving DecidableEq, Repr

/-- FB, the framebuffer: 32 rows of 64 pixels, `fb[row][column]` (10_state.md R23). -/
abbrev Framebuffer := Vector (Vector Bool 64) 32

/-- KEYS, the keypad latch (10_state.md R24). -/
abbrev Keypad := Vector Bool 16

/-- Memory as the cells that differ from what an unlisted address reads as, addresses rising. -/
abbrev Memory := List Host.Cell

/-- An operation the host has called and the block has not finished (60_exceptions.md R106, R109). DESIGN CHOICE (log entry 6): the
host's single Step (R113) is no operation here. The spec leaves open where single Steps fall among the host's Frames and
Initializes; in the model a single Step is a step with nothing pending, so none stands before an operation already pending. -/
inductive HostOp where
  /-- A Frame(keys) with `steps` Steps still to run before its Tick and its LatchKeys(keys) (R106, R107). -/
  | frame (steps : Nat) (keys : Keypad)
  /-- Initialize(rom) (70_reset_and_hazards.md R116). -/
  | initRom (rom : List Byte)
deriving DecidableEq, Repr

structure State where
  /-- the parameters of the step (00_scope.md R4, 10_state.md R28); nothing changes them -/
  params : Params
  /-- V0..VF (R14) -/
  v      : Vector Byte 16
  /-- I (R16) -/
  index  : Word
  /-- PC (R17) -/
  pc     : Word
  /-- SP, the number of return addresses held (R20) -/
  sp     : Fin 17
  /-- STACK (R21) -/
  stack  : Vector Word 16
  /-- DT (R22) -/
  dt     : Byte
  /-- ST (R22) -/
  st     : Byte
  /-- MEM (R27, 20_memory.md R32) -/
  mem    : Memory
  /-- FB (R23) -/
  fb     : Framebuffer
  /-- KEYS (R24) -/
  keys   : Keypad
  /-- AWAIT (R25) -/
  await  : Await
  /-- RUN (R26) -/
  run    : Run
  /-- the model's own: how many RAND8 draws have been made (log entry 4) -/
  draws  : Nat
  /-- the model's own: the host's pending Frames and Initializes, oldest first; no step adds to it (log entry 6) -/
  host   : List HostOp
deriving DecidableEq, Repr

/-- The machine right after reset: Initialize with an empty ROM (10_state.md R30, 70_reset_and_hazards.md R116, R117), the parameters
at this spec's values (00_scope.md R4). Unlisted memory reads as what that leaves: the font and zeros. -/
def State.reset : State where
  params := Config.params
  v      := Vector.replicate 16 0
  index  := 0
  pc     := 0x200
  sp     := 0
  stack  := Vector.replicate 16 0
  dt     := 0
  st     := 0
  mem    := []
  fb     := Vector.replicate 32 (Vector.replicate 64 false)
  keys   := Vector.replicate 16 false
  await  := .idle
  run    := .running
  draws  := 0
  host   := []

/-- What executing an instruction, or a step, answers. -/
abbrev Result := Host.Outcome State Fault Refusal

end Sys2Proof.Machine
end

