-- ==== Sys2Proof/Machine/Ops.lean ====
section
/-! DEFINITION. The named operations over registers, memory and the call stack, and taking a fault. Everything the meanings do to
the state goes through these. -/

namespace Sys2Proof.Machine

/-! ## Memory (20_memory.md) -/

/-- What an address that no cell lists reads as: the contents an empty ROM leaves, font below 0x050 and 0 elsewhere (R37, R38, R116).
Log entry 7. -/
def Memory.unlisted (font : Font) (a : Nat) : Byte :=
  if h : a < 80 then (font[a / 5]'(by omega))[a % 5]'(by omega) else 0

/-- The byte at an address. -/
def Memory.read (font : Font) : Memory → Nat → Byte
  | [], a => Memory.unlisted font a
  | (b, u) :: m, a => if a = b then u else Memory.read font m a

/-- Put a cell in front, unless it says what an unlisted address reads as. -/
def Memory.cons (font : Font) (a : Nat) (u : Byte) (m : Memory) : Memory :=
  if u = Memory.unlisted font a then m else (a, u) :: m

/-- Set the byte at an address, keeping the cells in address order and none of them equal to the unlisted value. -/
def Memory.write (font : Font) (a : Nat) (u : Byte) : Memory → Memory
  | [] => Memory.cons font a u []
  | (b, w) :: m =>
    if a < b then Memory.cons font a u ((b, w) :: m)
    else if a = b then Memory.cons font a u m
    else (b, w) :: Memory.write font a u m

/-- Set consecutive bytes from an address upward, lowest first. -/
def Memory.writeList (font : Font) (a : Nat) : List Byte → Memory → Memory
  | [], m => m
  | u :: us, m => Memory.writeList font (a + 1) us (Memory.write font a u m)

/-- Every cell is at an address from `lo` up to below `size`, addresses rise strictly, and no cell says what an unlisted address
reads as. -/
def Memory.wfFrom (font : Font) (size : Nat) : Nat → Memory → Bool
  | _, [] => true
  | lo, (a, u) :: m =>
    decide (lo ≤ a) && decide (a < size) && decide (u ≠ Memory.unlisted font a) && Memory.wfFrom font size (a + 1) m

/-- The canonical form of memory: equal memories are equal lists. -/
def Memory.wf (font : Font) (size : Nat) (m : Memory) : Bool := Memory.wfFrom font size 0 m

namespace State

/-- MEM_SIZE (R32). -/
def memSize (s : State) : Nat := s.params.memSize.toNat

/-- MEM[a], the byte at an address of memory (R32). -/
def byteAt (s : State) (a : Nat) : Byte := Memory.read s.params.font s.mem a

/-- `len` bytes from address `a` upward. -/
def bytesAt (s : State) (a : Nat) : Nat → List Byte
  | 0 => []
  | len + 1 => s.byteAt a :: s.bytesAt (a + 1) len

/-- MEM[a] <- u (R35). -/
def setByte (s : State) (a : Nat) (u : Byte) : State := { s with mem := Memory.write s.params.font a u s.mem }

/-- MEM[a], MEM[a+1], ... <- the bytes of a list (R35, R36). -/
def setBytes (s : State) (a : Nat) (us : List Byte) : State :=
  { s with mem := Memory.writeList s.params.font a us s.mem }

/-- The address decoder's check of an access to `len` bytes from `base` (R33): the lowest address that does not exist, if any. -/
def overflowAt (s : State) (base len : Nat) : Option Nat :=
  if 0 < len ∧ s.memSize ≤ base + len - 1 then some (max base s.memSize) else none

/-- MemRead(a, 1) (R34): the byte, or the address that does not exist. -/
def memRead (s : State) (a : Nat) : Except Nat Byte :=
  match s.overflowAt a 1 with
  | some bad => .error bad
  | none     => .ok (s.byteAt a)

/-! ## Registers (10_state.md) -/

/-- V[x] (R14). -/
def getV (s : State) (x : Nibble) : Byte := s.v[x.toNat]'x.isLt

/-- V[x] <- u (R14): no register is constant, none discards a write. -/
def setV (s : State) (x : Nibble) (u : Byte) : State := { s with v := s.v.set x.toNat u x.isLt }

/-- VF <- the flag as 0 or 1 (R15). -/
def setFlag (s : State) (f : Bool) : State := s.setV 0xF (if f then 1 else 0)

/-- I <- w (R16). -/
def setIndex (s : State) (w : Word) : State := { s with index := w }

/-- PC <- w (R17, R18, the direct kind). -/
def setPc (s : State) (w : Word) : State := { s with pc := w }

/-- PC <- PC + k (R17, R18). At 16 bits the sum wraps, which no fetched instruction can reach (R19; log entry 10). -/
def advance (s : State) (k : Nat) : State := s.setPc (s.pc + BitVec.ofNat 16 k)

/-- DT <- u (R22). -/
def setDelay (s : State) (u : Byte) : State := { s with dt := u }

/-- ST <- u (R22). -/
def setSound (s : State) (u : Byte) : State := { s with st := u }

/-- FB <- f (R23). -/
def setFb (s : State) (f : Framebuffer) : State := { s with fb := f }

/-- AWAIT <- a (R25). -/
def setAwait (s : State) (a : Await) : State := { s with await := a }

/-- V0, V1, ... <- the bytes of a list, from register `i` upward (43_index_memory.md R87). -/
def loadRegs (v : Vector Byte 16) (i : Nat) : List Byte → Vector Byte 16
  | [] => v
  | u :: us => loadRegs (v.setIfInBounds i u) (i + 1) us

/-- V0 .. V[x] (R86). -/
def regsUpTo (s : State) (x : Nibble) : List Byte := s.v.toList.take (x.toNat + 1)

/-! ## The random byte (44_timers_random.md R88, 60_exceptions.md R111) -/

/-- The byte the next draw returns. -/
def nextRandom (s : State) : Byte := Config.rand8 s.draws

/-- One draw has been made. -/
def drawn (s : State) : State := { s with draws := s.draws + 1 }

/-! ## The call stack (10_state.md R20, R21) -/

/-- Push a return address; `none` when 16 are held. The entry is written at index SP, then SP counts it. -/
def push (s : State) (ret : Word) : Option State :=
  if h : s.sp.val < 16 then
    some { s with stack := s.stack.set s.sp.val ret h, sp := ⟨s.sp.val + 1, by omega⟩ }
  else none

/-- Pop a return address; `none` when none is held. SP is lowered first, and the entry keeps its value. -/
def pop (s : State) : Option (Word × State) :=
  if h : 0 < s.sp.val then
    some (s.stack[s.sp.val - 1]'(by omega), { s with sp := ⟨s.sp.val - 1, by omega⟩ })
  else none

/-! ## Taking a fault (60_exceptions.md R96, R97)

There is no handler and no return from a fault (R100): the one operation that sets RUN back to Running is Initialize
(70_reset_and_hazards.md R116), in Machine/HostOps.lean. -/

/-- raise: RUN <- Halted(record), and nothing else changes; PC still holds the faulting instruction's address. -/
def raise (s : State) (f : Fault) (word : Option Word) (info : Option Nat) : State :=
  { s with run := .halted { code := f, pc := s.pc, word := word, info := info.map (BitVec.ofNat 16) } }

/-- A fault raised by an executing instruction: the record holds the instruction's word (R95). -/
def raiseBy (s : State) (i : Instr) (f : Fault) (info : Option Nat) : State := s.raise f (some (encode i)) info

/-! ## The fetch (20_memory.md R40, 30_encoding.md R56) -/

/-- Fetch the word at PC: the high byte from PC, then the low byte from PC + 1; or the address that does not exist. -/
def fetch (s : State) : Except Nat Word :=
  match s.memRead s.pc.toNat with
  | .error bad => .error bad
  | .ok hi =>
    match s.memRead (s.pc.toNat + 1) with
    | .error bad => .error bad
    | .ok lo => .ok (wordOfBytes hi lo)

end State

end Sys2Proof.Machine
end

