-- ==== Sys2Proof/Machine/Operands.lean ====
section
/-! DEFINITION. The operand forms of 30_encoding.md R58 and the shapes instructions share: a register destination, a skip, a
memory operand at I. A register operand V[x] is `State.getV` and `State.setV` (Machine/Ops.lean). -/

namespace Sys2Proof.Machine

/-- zext_16 of the address field nnn (30_encoding.md R50). -/
def zextAddr (nnn : Addr12) : Word := BitVec.ofNat 16 nnn.toNat

/-- zext_16 of a byte (00_scope.md R6). -/
def zextByte (u : Byte) : Word := BitVec.ofNat 16 u.toNat

/-- SOUND_TIMER_SRC: the chosen reading, or the free value where the parameter is left OPEN (44_timers_random.md R91; D13). -/
def soundSource (p : Params) : SoundTimerSrc :=
  match p.soundTimerSrc with
  | some src => src
  | none     => Config.soundTimerSrc

namespace State

/-- The register FX18 reads (44_timers_random.md R91): under n_field the one the word's n field names, which is 8 in every FX18
word; under x_field V[x]. -/
def soundOperand (s : State) (x : Nibble) : Byte :=
  match soundSource s.params with
  | .nField => s.getV (nField (encode (.ldStVx x)))
  | .xField => s.getV x

/-- The sequential instructions with a register destination: V[x] <- u, PC <- PC + 2 (10_state.md R18). -/
def writeReg (s : State) (x : Nibble) (u : Byte) : State := (s.setV x u).advance 2

/-- A flag-setting register instruction: the flag first, the destination last, so that x = 0xF keeps the result
(10_state.md R15; 92_eei_decisions.md D10). -/
def writeRegFlag (s : State) (x : Nibble) (u : Byte) (f : Bool) : State := ((s.setFlag f).setV x u).advance 2

/-- The skip kind: PC + 4 if the condition holds, else PC + 2 (10_state.md R18). -/
def skipIf (s : State) (c : Bool) : State := s.advance (if c then 4 else 2)

/-- The memory operand at I of `len` bytes: run `act` if every address exists, else take MemoryOverflow at the lowest one that does not,
before anything is written (20_memory.md R33). -/
def withOperandAtI (s : State) (i : Instr) (len : Nat) (act : State) : State :=
  match s.overflowAt s.index.toNat len with
  | some bad => s.raiseBy i .memoryOverflow (some bad)
  | none     => act

end State

end Sys2Proof.Machine
end

