-- ==== Sys2Proof/Machine/Flags.lean ====
section
/-! DEFINITION. Every flag computation of the spec (10_state.md R15): each is the Bool that VF holds as 0 or 1. The collision
flag of DXYN is computed by the sprite engine (Machine/Sprite.lean). -/

namespace Sys2Proof.Machine

/-- Carry of 8XY4: the 9-bit sum exceeds 255 (42_arithmetic.md R77). -/
def carryFlag (a b : Byte) : Bool := decide (255 < a.toNat + b.toNat)

/-- The flag of 8XY5 and, with its operands exchanged, of 8XY7: strictly greater (R78, R80; 90_conflicts.md C12). -/
def greaterFlag (a b : Byte) : Bool := decide (b.toNat < a.toNat)

/-- The flag of 8XY6: the least significant bit before the shift (R79). -/
def lsbFlag (a : Byte) : Bool := a.getLsbD 0

/-- The flag of 8XYE: the most significant bit before the shift (R81). -/
def msbFlag (a : Byte) : Bool := a.getLsbD 7

/-- The flag of FX1E: the sum, before it is narrowed to 16 bits, exceeds 0xFFF (43_index_memory.md R83). -/
def indexFlag (i : Word) (u : Byte) : Bool := decide (0xFFF < i.toNat + u.toNat)

end Sys2Proof.Machine
end

