-- ==== Sys2Proof/Machine/Arithmetic.lean ====
section
/-! DEFINITION. Register arithmetic and logic (42_arithmetic.md R71 to R81). -/

namespace Sys2Proof.Machine

/-- `6XNN` LD_IMM (R71). -/
def execLdImm (x : Nibble) (nn : Byte) (s : State) : Result := .next (s.writeReg x nn)

/-- `7XNN` ADD_IMM (R72): wraps, no flag. -/
def execAddImm (x : Nibble) (nn : Byte) (s : State) : Result := .next (s.writeReg x (s.getV x + nn))

/-- `8XY0` LD_REG (R73). -/
def execLdReg (x y : Nibble) (s : State) : Result := .next (s.writeReg x (s.getV y))

/-- `8XY1` OR (R74): VF is kept. -/
def execOr (x y : Nibble) (s : State) : Result := .next (s.writeReg x (s.getV x ||| s.getV y))

/-- `8XY2` AND (R75): VF is kept. -/
def execAnd (x y : Nibble) (s : State) : Result := .next (s.writeReg x (s.getV x &&& s.getV y))

/-- `8XY3` XOR (R76): VF is kept. -/
def execXor (x y : Nibble) (s : State) : Result := .next (s.writeReg x (s.getV x ^^^ s.getV y))

/-- `8XY4` ADD_REG (R77). -/
def execAddReg (x y : Nibble) (s : State) : Result :=
  .next (s.writeRegFlag x (s.getV x + s.getV y) (carryFlag (s.getV x) (s.getV y)))

/-- `8XY5` SUB (R78). -/
def execSub (x y : Nibble) (s : State) : Result :=
  .next (s.writeRegFlag x (s.getV x - s.getV y) (greaterFlag (s.getV x) (s.getV y)))

/-- `8XY6` SHR (R79): V[x] is shifted, y is ignored. -/
def execShr (x _y : Nibble) (s : State) : Result :=
  .next (s.writeRegFlag x (s.getV x >>> 1) (lsbFlag (s.getV x)))

/-- `8XY7` SUBN (R80). -/
def execSubn (x y : Nibble) (s : State) : Result :=
  .next (s.writeRegFlag x (s.getV y - s.getV x) (greaterFlag (s.getV y) (s.getV x)))

/-- `8XYE` SHL (R81): V[x] is shifted, y is ignored. -/
def execShl (x _y : Nibble) (s : State) : Result :=
  .next (s.writeRegFlag x (s.getV x <<< 1) (msbFlag (s.getV x)))

end Sys2Proof.Machine
end

