-- ==== Sys2Proof/Machine/Control.lean ====
section
/-! DEFINITION. Control transfer (41_control_flow.md R63 to R70). Targets are not checked when formed. -/

namespace Sys2Proof.Machine

/-- `00EE` RET (R63): PC is the popped value, with nothing added. -/
def execRet (s : State) : Result :=
  match s.pop with
  | some (ret, t) => .next (t.setPc ret)
  | none          => .next (s.raiseBy .ret .stackUnderflow none)

/-- `1NNN` JP (R64). -/
def execJp (nnn : Addr12) (s : State) : Result := .next (s.setPc (zextAddr nnn))

/-- `2NNN` CALL (R65): the value pushed is PC + 2 (92_eei_decisions.md D6; 90_conflicts.md C2). -/
def execCall (nnn : Addr12) (s : State) : Result :=
  match s.push (s.pc + 2) with
  | some t => .next (t.setPc (zextAddr nnn))
  | none   => .next (s.raiseBy (.call nnn) .stackOverflow none)

/-- `BNNN` JP_V0 (R66): the sum is not masked. -/
def execJpV0 (nnn : Addr12) (s : State) : Result := .next (s.setPc (zextByte (s.getV 0) + zextAddr nnn))

/-- `3XNN` SE_IMM (R67). -/
def execSeImm (x : Nibble) (nn : Byte) (s : State) : Result := .next (s.skipIf (decide (s.getV x = nn)))

/-- `4XNN` SNE_IMM (R68). -/
def execSneImm (x : Nibble) (nn : Byte) (s : State) : Result := .next (s.skipIf (decide (s.getV x ≠ nn)))

/-- `5XY0` SE_REG (R69). -/
def execSeReg (x y : Nibble) (s : State) : Result := .next (s.skipIf (decide (s.getV x = s.getV y)))

/-- `9XY0` SNE_REG (R70). -/
def execSneReg (x y : Nibble) (s : State) : Result := .next (s.skipIf (decide (s.getV x ≠ s.getV y)))

end Sys2Proof.Machine
end

