-- ==== Sys2Proof/Machine/Sprite.lean ====
section
/-! DEFINITION. The XOR-sprite engine over the framebuffer (40_display.md R62, 10_state.md R23). -/

namespace Sys2Proof.Machine

/-- FB[r][c]; outside the 32 rows and 64 columns there is no pixel, and the answer is false. -/
def Framebuffer.pixel (fb : Framebuffer) (r c : Nat) : Bool :=
  if h : r < 32 ∧ c < 64 then (fb[r]'h.1)[c]'h.2 else false

/-- FB[r][c] <- FB[r][c] XOR 1; outside the surface nothing. -/
def Framebuffer.flip (fb : Framebuffer) (r c : Nat) : Framebuffer :=
  if h : r < 32 ∧ c < 64 then fb.set r ((fb[r]'h.1).set c (!(fb[r]'h.1)[c]'h.2) h.2) h.1 else fb

/-- All pixels 0 (40_display.md R61). -/
def Framebuffer.clear : Framebuffer := Vector.replicate 32 (Vector.replicate 64 false)

/-- A drawing in progress: the surface, and whether a pixel has gone from 1 to 0. -/
structure Drawing where
  fb   : Framebuffer
  coll : Bool
deriving DecidableEq, Repr

/-- One bit of the sprite at row `r`, column `c`: a 0 bit does nothing, a pixel outside the surface is clipped. -/
def Drawing.bit (d : Drawing) (b : Bool) (r c : Nat) : Drawing :=
  if b = true ∧ r < 32 ∧ c < 64 then ⟨d.fb.flip r c, d.coll || d.fb.pixel r c⟩ else d

/-- The first `k` columns of a sprite byte from column `x0` of row `r`; bit 7 is the leftmost (92_eei_decisions.md D11). -/
def Drawing.columns (d : Drawing) (u : Byte) (r x0 : Nat) : Nat → Drawing
  | 0 => d
  | k + 1 => (d.columns u r x0 k).bit (u.getLsbD (7 - k)) r (x0 + k)

/-- The rows of a sprite from row `r` downward, one byte a row. -/
def Drawing.rows (x0 : Nat) : Nat → List Byte → Drawing → Drawing
  | _, [], d => d
  | r, u :: us, d => Drawing.rows x0 (r + 1) us (d.columns u r x0 8)

/-- Draw a sprite with its top left corner at (row, column); the collision flag starts at 0 (R62). -/
def drawSprite (fb : Framebuffer) (row col : Nat) (sprite : List Byte) : Drawing :=
  Drawing.rows col row sprite ⟨fb, false⟩

end Sys2Proof.Machine
end

