-- ==== Sys2Proof/Machine/Display.lean ====
section
/-! DEFINITION. The display instructions (40_display.md R61, R62). -/

namespace Sys2Proof.Machine

/-- `00E0` CLS (R61). -/
def execCls (s : State) : Result := .next ((s.setFb Framebuffer.clear).advance 2)

/-- DXYN once every sprite address is known to exist: the start position is read before VF is written, VF ends as the collision flag
(R62; 92_eei_decisions.md D11). -/
def drawAtI (x y n : Nibble) (s : State) : State :=
  let d := drawSprite s.fb ((s.getV y).toNat % 32) ((s.getV x).toNat % 64) (s.bytesAt s.index.toNat n.toNat)
  ((s.setFb d.fb).setFlag d.coll).advance 2

/-- `DXYN` DRW (R62). -/
def execDrw (x y n : Nibble) (s : State) : Result :=
  .next (s.withOperandAtI (.drw x y n) n.toNat (drawAtI x y n s))

end Sys2Proof.Machine
end

