-- ==== Sys2Proof/Machine/IndexMemory.lean ====
section
/-! DEFINITION. Index register and memory transfer (43_index_memory.md R82 to R87). -/

namespace Sys2Proof.Machine

/-- `ANNN` LD_I (R82). -/
def execLdI (nnn : Addr12) (s : State) : Result := .next ((s.setIndex (zextAddr nnn)).advance 2)

/-- `FX1E` ADD_I_VX (R83): I wraps at 16 bits, the flag is of the sum before the wrap; V[x] is read before VF is written. -/
def execAddIVx (x : Nibble) (s : State) : Result :=
  .next (((s.setIndex (s.index + zextByte (s.getV x))).setFlag (indexFlag s.index (s.getV x))).advance 2)

/-- `FX29` LD_F_VX (R84): V[x] is not masked to 4 bits. -/
def execLdFVx (x : Nibble) (s : State) : Result :=
  .next ((s.setIndex (BitVec.ofNat 16 ((s.getV x).toNat * 5))).advance 2)

/-- The decimal digits of a byte: hundreds, tens, units (R85). -/
def bcdDigits (u : Byte) : List Byte :=
  [BitVec.ofNat 8 (u.toNat / 100), BitVec.ofNat 8 (u.toNat / 10 % 10), BitVec.ofNat 8 (u.toNat % 10)]

/-- `FX33` LD_B_VX (R85). -/
def execLdBVx (x : Nibble) (s : State) : Result :=
  .next (s.withOperandAtI (.ldBVx x) 3 ((s.setBytes s.index.toNat (bcdDigits (s.getV x))).advance 2))

/-- I <- I + x + 1 (R86, R87). -/
def indexPast (x : Nibble) (s : State) : State := s.setIndex (s.index + BitVec.ofNat 16 (x.toNat + 1))

/-- `FX55` LD_MEM_VX (R86). -/
def execLdMemVx (x : Nibble) (s : State) : Result :=
  .next (s.withOperandAtI (.ldMemVx x) (x.toNat + 1)
    ((indexPast x (s.setBytes s.index.toNat (s.regsUpTo x))).advance 2))

/-- `FX65` LD_VX_MEM (R87). -/
def execLdVxMem (x : Nibble) (s : State) : Result :=
  .next (s.withOperandAtI (.ldVxMem x) (x.toNat + 1)
    ((indexPast x { s with v := State.loadRegs s.v 0 (s.bytesAt s.index.toNat (x.toNat + 1)) }).advance 2))

end Sys2Proof.Machine
end

