-- ==== Sys2Proof/Machine/Keypad.lean ====
section
/-! DEFINITION. Keypad instructions (45_keypad.md R92 to R94). -/

namespace Sys2Proof.Machine

/-- What the input mux answers for a key index (R92, R93): the latch entry; above 15 not pressed, or `none` for the fault, by the
parameter KEY_INDEX_POLICY. -/
def State.keyAt (s : State) (k : Byte) : Option Bool :=
  if h : k.toNat < 16 then some (s.keys[k.toNat]'h)
  else
    match s.params.keyIndexPolicy with
    | .fault      => none
    | .notPressed => some false

/-- `EX9E` SKP (R92). -/
def execSkp (x : Nibble) (s : State) : Result :=
  match s.keyAt (s.getV x) with
  | some pressed => .next (s.skipIf pressed)
  | none         => .next (s.raiseBy (.skp x) .keyIndexOutOfRange (some (s.getV x).toNat))

/-- `EXA1` SKNP (R93). -/
def execSknp (x : Nibble) (s : State) : Result :=
  match s.keyAt (s.getV x) with
  | some pressed => .next (s.skipIf (!pressed))
  | none         => .next (s.raiseBy (.sknp x) .keyIndexOutOfRange (some (s.getV x).toNat))

/-- The key indices, lowest first. -/
def keyIndices : List (Fin 16) := [0, 1, 2, 3, 4, 5, 6, 7, 8, 9, 10, 11, 12, 13, 14, 15]

/-- lowest() of R94: the least pressed key, if any. -/
def State.lowestKey (s : State) : Option (Fin 16) := keyIndices.find? fun k => s.keys[k]

/-- The wait resolves with key k: V[x] <- k, AWAIT <- Idle, PC <- PC + 2 (R94). -/
def State.resolveKey (s : State) (x : Nibble) (k : Fin 16) : State :=
  (s.setAwait .idle).writeReg x (BitVec.ofNat 8 k.val)

/-- `FX0A` LD_VX_K (R94): the await-key state machine, in the mode AWAIT_KEY_MODE. A waiting step changes nothing at all. -/
def execLdVxK (x : Nibble) (s : State) : Result :=
  match s.await with
  | .idle =>
    match s.lowestKey with
    | none   => .next s
    | some k =>
      match s.params.awaitKeyMode with
      | .level   => .next (s.resolveKey x k)
      | .release => .next (s.setAwait (.keyObserved k))
  | .keyObserved k => if s.keys[k] then .next s else .next (s.resolveKey x k)

end Sys2Proof.Machine
end

