-- ==== Sys2Proof/Machine/TimersRandom.lean ====
section
/-! DEFINITION. Random and timer instructions (44_timers_random.md R88 to R91). -/

namespace Sys2Proof.Machine

/-- `CXNN` RND (R88): one draw, a free value (log entry 4). -/
def execRnd (x : Nibble) (nn : Byte) (s : State) : Result := .next (s.drawn.writeReg x (s.nextRandom &&& nn))

/-- `FX07` LD_VX_DT (R89). -/
def execLdVxDt (x : Nibble) (s : State) : Result := .next (s.writeReg x s.dt)

/-- `FX15` LD_DT_VX (R90). -/
def execLdDtVx (x : Nibble) (s : State) : Result := .next ((s.setDelay (s.getV x)).advance 2)

/-- `FX18` LD_ST_VX (R91): both readings of the operand, by the parameter SOUND_TIMER_SRC. -/
def execLdStVx (x : Nibble) (s : State) : Result := .next ((s.setSound (s.soundOperand x)).advance 2)

end Sys2Proof.Machine
end

