-- ==== Sys2Proof/Machine/Cycle.lean ====
section
/-! DEFINITION. The spec's Step(): fetch, decode, execute (30_encoding.md R56). -/

namespace Sys2Proof.Machine

/-- Step() (R56), by phases in the priority of 60_exceptions.md R99: a halted machine does nothing (R98); a fetch past memory and a
word with no meaning take their faults (R57); anything else executes. -/
def stepInstr (s : State) : Result :=
  match s.run with
  | .halted _ => .next s
  | .running =>
    match s.fetch with
    | .error bad => .next (s.raise .memoryOverflow none (some bad))
    | .ok w =>
      match decodeWord w with
      | none   => .next (s.raise .invalidInstruction (some w) none)
      | some i => exec i s

end Sys2Proof.Machine
end

