-- ==== Sys2Proof/Machine/HostOps.lean ====
section
/-! DEFINITION. The operations the host calls, other than Step and Frame (60_exceptions.md R109): Initialize, Tick, LatchKeys and
the reads. -/

namespace Sys2Proof.Machine

namespace State

/-- One timer's count down: by 1, never below 0 (10_state.md R22). -/
def countDown (u : Byte) : Byte := if 0 < u.toNat then u - 1 else u

/-- Tick() (60_exceptions.md R104): nothing on a halted machine, else each timer by itself. -/
def tick (s : State) : State :=
  match s.run with
  | .running  => { s with dt := countDown s.dt, st := countDown s.st }
  | .halted _ => s

/-- LatchKeys(k) (R108): all 16 entries at once, on a halted machine too (R98). -/
def latchKeys (k : Keypad) (s : State) : State := { s with keys := k }

/-- What ends a frame after its Steps: Tick, then LatchKeys (R106, R129). -/
def endFrame (k : Keypad) (s : State) : State := (s.tick).latchKeys k

/-- RUN after Initialize: Running, or Halted with MemoryOverflow for a ROM that does not fit (70_reset_and_hazards.md R116, R117). -/
def runAfterLoad (size : MemSize) (rom : List Byte) : Run :=
  if romFits size rom then .running
  else .halted { code := .memoryOverflow, pc := BitVec.ofNat 16 Config.progBase, word := none,
                 info := some (BitVec.ofNat 16 size.toNat) }

/-- MEM after Initialize: font and zeros, which no cell lists, and the ROM unmodified from PROG_BASE if it fits, else none of it
(R116, R117). -/
def memAfterLoad (font : Font) (size : MemSize) (rom : List Byte) : Memory :=
  if romFits size rom then Memory.writeList font Config.progBase rom [] else []

/-- Initialize(rom) (R116): the full reset and the program load. The parameters are no state, and the model's own fields `draws` and
`host` are not the block's to reset. -/
def initRom (rom : List Byte) (s : State) : State where
  params := s.params
  v      := Vector.replicate 16 0
  index  := 0
  pc     := BitVec.ofNat 16 Config.progBase
  sp     := 0
  stack  := Vector.replicate 16 0
  dt     := 0
  st     := 0
  mem    := memAfterLoad s.params.font s.params.memSize rom
  fb     := Framebuffer.clear
  keys   := Vector.replicate 16 false
  await  := .idle
  run    := runAfterLoad s.params.memSize rom
  draws  := s.draws
  host   := s.host

/-- ReadFB() (R110): the 64x32 grid; a read changes nothing. -/
def readFb (s : State) : Framebuffer := s.fb

/-- The host's read of ST (R105, R110). -/
def readSound (s : State) : Byte := s.st

/-- The host's read of the fault record, if the machine is halted (R98, R110). -/
def readFault (s : State) : Option FaultRecord :=
  match s.run with
  | .running  => none
  | .halted r => some r

end State

/-! ## Placing an instruction -/

/-- Where the instruction is placed: PC, or PROG_BASE where no word can be fetched at PC. -/
def placeAt (s : State) : Word :=
  if s.pc.toNat + 1 < s.memSize then s.pc else BitVec.ofNat 16 Config.progBase

/-- The machine running, with nothing pending from the host and the two bytes of a word at the place it fetches next (log entry 9). -/
def placeWord (s : State) (w : Word) : State :=
  { s.setBytes (placeAt s).toNat [highByte w, lowByte w] with pc := placeAt s, run := .running, host := [] }

end Sys2Proof.Machine
end

