-- ==== Sys2Proof/Machine/Step.lean ====
section
/-! DEFINITION. One step of the machine: the spec's Step() (30_encoding.md R56, Machine/Cycle.lean), and whose turn it is when the
host has operations pending (60_exceptions.md R106, R109). -/

namespace Sys2Proof.Machine

/-- One step. With nothing pending it is Step(), the host's single step (R113), which can only be after every pending operation:
DESIGN CHOICE, log entry 6. In a frame it is one of the frame's Steps, or, when
they are used up, the frame's Tick and LatchKeys; an Initialize is one step (log entry 6). -/
def step (s : State) : Host.Outcome State Fault Refusal :=
  match s.host with
  | [] => stepInstr s
  | .frame (n + 1) keys :: rest => stepInstr { s with host := .frame n keys :: rest }
  | .frame 0 keys :: rest => .next (State.endFrame keys { s with host := rest })
  | .initRom rom :: rest => .next (State.initRom rom { s with host := rest })

/-- The state with the instruction whose bits are `w`, numbered as spec/opcode_table.json numbers them, where step fetches next. -/
def State.withFetchWord (s : State) (nbits w : Nat) : State := placeWord s (tableWord nbits w)

end Sys2Proof.Machine
end

