-- ==== Sys2Proof/Machine/Frame.lean ====
section
/-! DEFINITION. Frame(keys), the unit by which the host drives the block, as the spec writes it (60_exceptions.md R106). -/

namespace Sys2Proof.Machine

/-- The burst of a frame: N Steps (R106, R107). -/
def burst : Nat → State → Result
  | 0, s => .next s
  | n + 1, s =>
    match stepInstr s with
    | .next t    => burst n t
    | .fault r   => .fault r
    | .refused r => .refused r

/-- Frame(keys) with N = `n`: the burst, then Tick, then LatchKeys (R106). -/
def frame (n : Nat) (keys : Keypad) (s : State) : Result :=
  match burst n s with
  | .next t    => .next (t.endFrame keys)
  | .fault r   => .fault r
  | .refused r => .refused r

end Sys2Proof.Machine
end

