-- ==== Sys2Proof/Safety.lean ====
section
/-! DEFINITION. The terms claims are stated in: what a well-kept state is, what a step leaves unchanged, which instruction may write
or read what (10_state.md R15, R29), and the picture a sprite makes (40_display.md R62). -/

namespace Sys2Proof.Machine

/-! ## Invariants -/

/-- Memory is in its canonical form and lists no address that does not exist (20_memory.md R32). -/
abbrev State.memOk (s : State) : Prop := Memory.wf s.params.font s.memSize s.mem = true

/-- PC is at most the largest value any rule can write, and every return address is at most MEM_SIZE (10_state.md R19, R21). -/
abbrev State.pcOk (s : State) : Prop :=
  s.pc.toNat ≤ 0x10FE ∧ ∀ j : Fin 16, (s.stack[j]).toNat ≤ s.memSize

/-- The word at PC is an FX0A. -/
def State.atAwaitKey (s : State) : Bool :=
  match s.fetch with
  | .ok w =>
    match decodeWord w with
    | some (.ldVxK _) => true
    | _ => false
  | .error _ => false

/-- While a key is observed, the word at PC is an FX0A (10_state.md R25). -/
abbrev State.awaitOk (s : State) : Prop := s.await = .idle ∨ s.atAwaitKey = true

/-- A fault has ended the run (10_state.md R26). -/
def State.isHalted (s : State) : Bool :=
  match s.run with
  | .running  => false
  | .halted _ => true

/-! ## Frames: what is unchanged from one state to another -/

/-- Every byte of memory reads as before. -/
def sameMemory (s t : State) : Prop := ∀ a, t.byteAt a = s.byteAt a

/-- Every byte of memory outside the `len` addresses from `a` reads as before. -/
def sameMemoryOutside (a len : Nat) (s t : State) : Prop :=
  ∀ b, ¬ (a ≤ b ∧ b < a + len) → t.byteAt b = s.byteAt b

/-- Nothing but PC differs: every register, flag, timer, pixel, key, stack entry and byte of memory is as before. -/
def onlyPc (s t : State) : Prop := t = { s with pc := t.pc } ∧ sameMemory s t

/-- Nothing but the registers V and PC differs. -/
def onlyVPc (s t : State) : Prop := t = { s with v := t.v, pc := t.pc } ∧ sameMemory s t

/-- Every register of V but those in a list is as before. -/
def sameRegsBut (xs : List Nibble) (s t : State) : Prop := ∀ z, z ∉ xs → t.getV z = s.getV z

/-- The fault an executing instruction takes: only RUN differs, and its record is the one 60_exceptions.md R96 gives. -/
def haltedBy (s : State) (i : Instr) (f : Fault) (info : Option Word) : State :=
  { s with run := .halted { code := f, pc := s.pc, word := some (encode i), info := info } }

/-- A register instruction completes with V[x] = `r`, every other register as before, PC past it, and nothing else changed. -/
def setsReg (i : Instr) (s : State) (x : Nibble) (r : Nat) : Prop :=
  ∃ t, exec i s = .next t ∧ (t.getV x).toNat = r ∧ sameRegsBut [x] s t ∧ t.pc = s.pc + 2 ∧ onlyVPc s t

/-- The same with a flag: VF is 1 when `f` holds and 0 when not, unless VF is the destination, which then keeps the result
(10_state.md R15). -/
def setsRegAndFlag (i : Instr) (s : State) (x : Nibble) (r : Nat) (f : Prop) : Prop :=
  ∃ t, exec i s = .next t ∧ (t.getV x).toNat = r ∧
    (x ≠ 0xF → (f → t.getV 0xF = 1) ∧ (¬ f → t.getV 0xF = 0)) ∧
    sameRegsBut [x, 0xF] s t ∧ t.pc = s.pc + 2 ∧ onlyVPc s t

/-- A skip completes: PC + 4 when `c` holds and PC + 2 when not, and nothing else changed (10_state.md R18). -/
def skipsWhen (i : Instr) (s : State) (c : Prop) : Prop :=
  ∃ t, exec i s = .next t ∧ (c → t.pc = s.pc + 4) ∧ (¬ c → t.pc = s.pc + 2) ∧ onlyPc s t

/-- Apply a function to a next state. -/
def mapNext (f : State → State) : Result → Result
  | .next t    => .next (f t)
  | .fault r   => .fault r
  | .refused r => .refused r

/-! ## Which instruction may write or read what (10_state.md R15, R29; 60_exceptions.md R95) -/

/-- The instructions that write VF as a flag (R15). -/
def writesFlag : Instr → Bool
  | .addReg _ _ | .sub _ _ | .shr _ _ | .subn _ _ | .shl _ _ | .drw _ _ _ | .addIVx _ => true
  | _ => false

/-- The registers of V an instruction has as destinations: V[x], or V0..V[x] for FX65 (R14, R15). -/
def isDestination (z : Nibble) : Instr → Bool
  | .ldImm x _ | .addImm x _ | .ldReg x _ | .or x _ | .and x _ | .xor x _ | .addReg x _ | .sub x _ | .shr x _ | .subn x _
  | .shl x _ | .rnd x _ | .ldVxDt x | .ldVxK x => z == x
  | .ldVxMem x => decide (z.toNat ≤ x.toNat)
  | _ => false

/-- The writers of I (R29). -/
def writesIndex : Instr → Bool
  | .ldI _ | .addIVx _ | .ldFVx _ | .ldMemVx _ | .ldVxMem _ => true
  | _ => false

/-- The writers of SP (R29). -/
def writesSp : Instr → Bool
  | .call _ | .ret => true
  | _ => false

/-- The writers of MEM (R29). -/
def writesMemory : Instr → Bool
  | .ldBVx _ | .ldMemVx _ => true
  | _ => false

/-- The writers of FB (R29). -/
def writesFramebuffer : Instr → Bool
  | .cls | .drw _ _ _ => true
  | _ => false

/-- The readers of KEYS (R29). -/
def readsKeys : Instr → Bool
  | .skp _ | .sknp _ | .ldVxK _ => true
  | _ => false

/-- The instructions that can take a fault of their own (R95). -/
def canFault : Instr → Bool
  | .ret | .call _ | .drw _ _ _ | .ldBVx _ | .ldMemVx _ | .ldVxMem _ | .skp _ | .sknp _ => true
  | _ => false

/-- The bytes of the memory operand at I (20_memory.md R36). -/
def operandBytes : Instr → Nat
  | .drw _ _ n => n.toNat
  | .ldBVx _ => 3
  | .ldMemVx x | .ldVxMem x => x.toNat + 1
  | _ => 0

/-! ## What a storing instruction leaves in memory (43_index_memory.md R85, R86) -/

/-- The byte that FX33 or FX55 stores at I + `k`: a decimal digit of V[x], hundreds first, or V[k]. -/
def State.storedByte (s : State) (i : Instr) (k : Nat) : Byte :=
  match i with
  | .ldBVx x =>
    BitVec.ofNat 8
      (if k = 0 then (s.getV x).toNat / 100 else if k = 1 then (s.getV x).toNat / 10 % 10 else (s.getV x).toNat % 10)
  | .ldMemVx _ => s.getV (BitVec.ofNat 4 k)
  | _ => 0

/-- The byte at an address once FX33 or FX55 has stored its bytes: the stored one within its operand at I, else the old one. -/
def State.byteOnceStored (s : State) (i : Instr) (a : Nat) : Byte :=
  if s.index.toNat ≤ a ∧ a < s.index.toNat + operandBytes i then s.storedByte i (a - s.index.toNat) else s.byteAt a

/-! ## The picture of a sprite (40_display.md R62) -/

/-- DXYN's sprite has a 1 at row `r`, column `c` of the surface: the row is one of the n rows from V[y] mod 32 downward, the column one
of the eight from V[x] mod 64 rightward, and that row's byte has the bit, bit 7 leftmost. -/
def State.spriteAt (s : State) (x y n : Nibble) (r c : Nat) : Bool :=
  decide ((s.getV y).toNat % 32 ≤ r) && decide (r < (s.getV y).toNat % 32 + n.toNat) &&
  decide ((s.getV x).toNat % 64 ≤ c) && decide (c < (s.getV x).toNat % 64 + 8) &&
  (s.byteAt (s.index.toNat + (r - (s.getV y).toNat % 32))).getLsbD (7 - (c - (s.getV x).toNat % 64))

/-- Some pixel of the surface is 1 where the sprite has a 1. -/
def State.collides (s : State) (x y n : Nibble) : Prop :=
  ∃ r c, r < 32 ∧ c < 64 ∧ s.spriteAt x y n r c = true ∧ s.fb.pixel r c = true

end Sys2Proof.Machine
end

