-- ==== Sys2Proof/Certificates/Slice0/Obligations.lean ====
section
/-! DEFINITION. The statements for the provers. Each docstring names the rule of the spec it formalises; OBLIGATIONS.json lists them. -/

open Sys2Proof Sys2Proof.Machine

/-! ## Encoding -/

/-- Decoding the encoding of any instruction gives it back, as a word and as the bytes in memory (R48, R50, R51, R53). -/
def Obligations.DecodeOfEncodeIsTheInstruction : Prop :=
  ∀ (i : Instr) (rest : List Byte),
    decodeWord (encode i) = some i ∧ decodeBytes (encodeBytes i ++ rest) = .ok (i, rest)

/-- Every word an instruction is decoded from is that instruction's encoding: no free bit is dropped (R51, R53, R59). -/
def Obligations.EncodeOfDecodeIsTheWord : Prop :=
  ∀ (w : Word) (i : Instr), decodeWord w = some i → encode i = w

/-- The decoder of R53 accepts exactly the words that some row of the opcode table selects by mask and match. -/
def Obligations.DecoderAcceptsExactlyTheTablesWords : Prop :=
  ∀ w : Word, (decodeWord w).isSome = wellFormedWord w

/-- The invalid words are the six groups of R54. -/
def Obligations.InvalidWordsAreTheSixGroups : Prop :=
  ∀ w : Word, decodeWord w = none ↔
    (opField w = 0x0 ∧ w ≠ 0x00E0 ∧ w ≠ 0x00EE) ∨
    (opField w = 0x5 ∧ nField w ≠ 0) ∨
    (opField w = 0x8 ∧ nField w ∈ [0x8, 0x9, 0xA, 0xB, 0xC, 0xD, 0xF]) ∨
    (opField w = 0x9 ∧ nField w ≠ 0) ∨
    (opField w = 0xE ∧ nnField w ∉ [0x9E, 0xA1]) ∨
    (opField w = 0xF ∧ nnField w ∉ [0x07, 0x0A, 0x15, 0x18, 0x1E, 0x29, 0x33, 0x55, 0x65])

/-- Words written out from R52 and the vectors of 95_test_vectors.md decode to the instructions they stand for, one or more of every
family. -/
def Obligations.WrittenOutWordsDecode : Prop :=
  decodeWord 0x00E0 = some .cls ∧ decodeWord 0xDF11 = some (.drw 0xF 1 1) ∧
  decodeWord 0x00EE = some .ret ∧ decodeWord 0x2210 = some (.call 0x210) ∧ decodeWord 0x9340 = some (.sneReg 3 4) ∧
  decodeWord 0x6005 = some (.ldImm 0 5) ∧ decodeWord 0x8126 = some (.shr 1 2) ∧ decodeWord 0x812E = some (.shl 1 2) ∧
  decodeWord 0xA203 = some (.ldI 0x203) ∧ decodeWord 0xFF65 = some (.ldVxMem 0xF) ∧
  decodeWord 0xC10F = some (.rnd 1 0x0F) ∧ decodeWord 0xF118 = some (.ldStVx 1) ∧
  decodeWord 0xE1A1 = some (.sknp 1) ∧ decodeWord 0xF00A = some (.ldVxK 0)

/-! ## The step -/

/-- When the two bytes at PC decode to an instruction, the step of a running machine is exec of it, on the state itself when the host
has nothing pending, and inside a frame on the state with one Step fewer to run (R56, R106). -/
def Obligations.StepRunsTheDecodedInstruction : Prop :=
  ∀ (s : State) (i : Instr), s.run = .running → s.pc.toNat + 1 < s.memSize →
    decodeWord (wordOfBytes (s.byteAt s.pc.toNat) (s.byteAt (s.pc.toNat + 1))) = some i →
    (s.host = [] → step s = exec i s) ∧
    (∀ n keys rest, s.host = .frame (n + 1) keys :: rest →
      step s = exec i { s with host := .frame n keys :: rest })

/-- What a step does where no instruction executes, in the order of R99: a halted machine does nothing, a fetch at or past the end of
memory takes MemoryOverflow at PC or at PC + 1, a word with no meaning takes InvalidInstruction (R41, R56, R57, R98). -/
def Obligations.StepTakesItsFaultsInOrder : Prop :=
  ∀ s : State, s.host = [] →
    (∀ r, s.run = .halted r → step s = .next s) ∧
    (s.run = .running → s.memSize ≤ s.pc.toNat →
      step s = .next { s with run := .halted ⟨.memoryOverflow, s.pc, none, some s.pc⟩ }) ∧
    (s.run = .running → s.pc.toNat + 1 = s.memSize →
      step s = .next { s with run := .halted ⟨.memoryOverflow, s.pc, none, some (s.pc + 1)⟩ }) ∧
    (s.run = .running → s.pc.toNat + 1 < s.memSize →
      ∀ w, w = wordOfBytes (s.byteAt s.pc.toNat) (s.byteAt (s.pc.toNat + 1)) → decodeWord w = none →
      step s = .next { s with run := .halted ⟨.invalidInstruction, s.pc, some w, none⟩ })

/-- The model never stops: every step from every state answers a next state (R8: a fault is a halted state, R98: a halted machine's
step changes nothing). -/
def Obligations.EveryStepAnswersANextState : Prop :=
  ∀ s : State, ∃ t, step s = .next t

/-- A fault is precise (R97): the state after the faulting step is the state before it, except RUN, and the record holds its PC. -/
def Obligations.FaultingStepChangesOnlyRun : Prop :=
  ∀ (s t : State) (r : FaultRecord), s.run = .running → stepInstr s = .next t → t.run = .halted r →
    t = { s with run := .halted r } ∧ r.pc = s.pc

/-- Each fault has the cause R95 gives it, and its record says so (R96). -/
def Obligations.FaultsAreTakenOnlyForTheirCause : Prop :=
  ∀ (s t : State) (r : FaultRecord), s.run = .running → stepInstr s = .next t → t.run = .halted r →
    (r.code = .invalidInstruction →
      ∃ w, s.fetch = .ok w ∧ decodeWord w = none ∧ r.word = some w ∧ r.info = none) ∧
    (r.code = .memoryOverflow →
      (∃ a, s.fetch = .error a ∧ s.memSize ≤ a ∧ r.word = none ∧ r.info = some (BitVec.ofNat 16 a)) ∨
      (∃ i, s.fetch = .ok (encode i) ∧ 0 < operandBytes i ∧ s.memSize < s.index.toNat + operandBytes i ∧
        r.word = some (encode i) ∧ r.info = some (BitVec.ofNat 16 (max s.index.toNat s.memSize)))) ∧
    (r.code = .stackOverflow →
      ∃ nnn, s.fetch = .ok (encode (.call nnn)) ∧ s.sp = 16 ∧ r.word = some (encode (.call nnn)) ∧ r.info = none) ∧
    (r.code = .stackUnderflow →
      s.fetch = .ok (encode .ret) ∧ s.sp = 0 ∧ r.word = some (encode .ret) ∧ r.info = none) ∧
    (r.code = .keyIndexOutOfRange →
      ∃ i x, (i = .skp x ∨ i = .sknp x) ∧ s.fetch = .ok (encode i) ∧ 16 ≤ (s.getV x).toNat ∧
        s.params.keyIndexPolicy = .fault ∧ r.word = some (encode i) ∧
        r.info = some (BitVec.ofNat 16 (s.getV x).toNat))

/-- Each instruction moves PC in the way of its kind (R18): the direct kind to its target, a skip by 4 or 2, the wait by 0 or 2, every
other by 2; a fault leaves PC. -/
def Obligations.EachInstructionMovesPcByItsKind : Prop :=
  ∀ (i : Instr) (s t : State), s.run = .running → exec i s = .next t →
    (t.run ≠ .running → t.pc = s.pc) ∧
    (t.run = .running →
      match i with
      | .jp nnn | .call nnn => t.pc.toNat = nnn.toNat
      | .jpV0 nnn => t.pc.toNat = (s.getV 0).toNat + nnn.toNat
      | .ret => ∃ j : Fin 16, s.sp.val = j.val + 1 ∧ t.pc = s.stack[j]
      | .seImm _ _ | .sneImm _ _ | .seReg _ _ | .sneReg _ _ | .skp _ | .sknp _ => t.pc = s.pc + 4 ∨ t.pc = s.pc + 2
      | .ldVxK _ => t.pc = s.pc ∨ t.pc = s.pc + 2
      | _ => t.pc = s.pc + 2)

/-- No instruction changes a register of V that is not its destination, but for VF by the seven flag writers (R14, R15). -/
def Obligations.OnlyFlagWritersAndDestinationsChangeV : Prop :=
  ∀ (i : Instr) (s t : State) (z : Nibble), exec i s = .next t → isDestination z i = false →
    (z = 0xF → writesFlag i = false) → t.getV z = s.getV z

/-- No instruction changes a piece of state that R29 gives it no w for; no instruction changes KEYS, the parameters or what the host
has pending; only an instruction R95 names can change RUN; only CXNN draws (R21, R22, R24, R29, R95). -/
def Obligations.OnlyTheListedInstructionsWriteEachRegister : Prop :=
  ∀ (i : Instr) (s t : State), exec i s = .next t →
    (writesIndex i = false → t.index = s.index) ∧
    (writesSp i = false → t.sp = s.sp) ∧
    ((∀ nnn, i ≠ .call nnn) → t.stack = s.stack) ∧
    ((∀ x, i ≠ .ldDtVx x) → t.dt = s.dt) ∧
    ((∀ x, i ≠ .ldStVx x) → t.st = s.st) ∧
    (writesFramebuffer i = false → t.fb = s.fb) ∧
    (writesMemory i = false → t.mem = s.mem ∧ sameMemory s t) ∧
    ((∀ x, i ≠ .ldVxK x) → t.await = s.await) ∧
    (canFault i = false → t.run = s.run) ∧
    ((∀ x nn, i ≠ .rnd x nn) → t.draws = s.draws) ∧
    t.keys = s.keys ∧ t.params = s.params ∧ t.host = s.host

/-- Isolation of the keypad: an instruction other than EX9E, EXA1 and FX0A does the same whatever KEYS holds (R24, R29). -/
def Obligations.KeysAreReadOnlyByKeypadInstructions : Prop :=
  ∀ (i : Instr) (s : State) (k : Keypad), readsKeys i = false →
    exec i { s with keys := k } = mapNext (fun t => { t with keys := k }) (exec i s)

/-- Isolation of the sound timer: no instruction's effect on anything but ST depends on ST (R22, R29). -/
def Obligations.SoundTimerIsReadByNoInstruction : Prop :=
  ∀ (i : Instr) (s : State) (u : Byte),
    mapNext (fun t => { t with st := 0 }) (exec i { s with st := u }) = mapNext (fun t => { t with st := 0 }) (exec i s)

/-- A byte stored by FX33 or FX55 is seen by the very next fetch: where the instruction completes and a word follows it in memory, the
next fetch reads that word with every byte the instruction has stored over it, both, one or neither, and the old byte where it has not
(R47, R125). The premise `memOk` is the model's own canonical form of memory (log entry 7), an invariant of every step. -/
def Obligations.StoredBytesAreFetchedNext : Prop :=
  ∀ (i : Instr) (s : State), writesMemory i = true → s.memOk → s.index.toNat + operandBytes i ≤ s.memSize →
    s.pc.toNat + 3 < s.memSize →
    ∃ t, exec i s = .next t ∧
      t.fetch = .ok (wordOfBytes (s.byteOnceStored i (s.pc.toNat + 2)) (s.byteOnceStored i (s.pc.toNat + 3)))

/-! ## Invariants -/

/-- Every step, the host's operations among them, keeps memory within MEM_SIZE (R32) and in its canonical form, addresses rising and
no cell equal to the unlisted value. The form is the model's own choice, no rule of the spec (log entry 7). -/
def Obligations.StepKeepsMemoryCanonical : Prop :=
  ∀ s t : State, s.memOk → step s = .next t → t.memOk

/-- Every step keeps PC at most 0x10FE and every return address at most MEM_SIZE, so PC never wraps (R19, R21). -/
def Obligations.StepKeepsPcInBounds : Prop :=
  ∀ s t : State, s.pcOk → step s = .next t → t.pcOk

/-- Every step keeps this: while a key is observed, the word at PC is an FX0A (R25). -/
def Obligations.StepKeepsAwaitAtItsInstruction : Prop :=
  ∀ s t : State, s.awaitOk → step s = .next t → t.awaitOk

/-- The state after reset meets the three invariants. That its memory is canonical rests on the model's own choice of how memory is
held (log entry 7); PC, the stack and AWAIT are as R30 gives them. -/
def Obligations.ResetMeetsTheInvariants : Prop :=
  State.reset.memOk ∧ State.reset.pcOk ∧ State.reset.awaitOk

/-- No step changes a parameter (R28). -/
def Obligations.StepKeepsTheParameters : Prop :=
  ∀ s t : State, step s = .next t → t.params = s.params

/-- KEYS changes only where a frame ends or a program is loaded: never at a single Step and never within a burst (R24, R45, R108). -/
def Obligations.KeysChangeOnlyAtAFrameBoundary : Prop :=
  ∀ s t : State, step s = .next t →
    (s.host = [] ∨ ∃ n keys rest, s.host = .frame (n + 1) keys :: rest) → t.keys = s.keys

/-! ## Reset and the host's operations -/

/-- The state after reset holds the values of R30 for an empty ROM: registers, stack, timers and framebuffer 0, PC 0x200, the font at
its place and every other byte 0. -/
def Obligations.ResetHoldsTheStatedValues : Prop :=
  (∀ x, State.reset.getV x = 0) ∧ State.reset.index = 0 ∧ State.reset.pc = 0x200 ∧ State.reset.sp = 0 ∧
  (∀ j : Fin 16, State.reset.stack[j] = 0) ∧ State.reset.dt = 0 ∧ State.reset.st = 0 ∧
  (∀ r c, State.reset.fb.pixel r c = false) ∧ (∀ k : Fin 16, State.reset.keys[k] = false) ∧
  State.reset.await = .idle ∧ State.reset.run = .running ∧
  (∀ (d : Fin 16) (k : Fin 5), State.reset.byteAt (5 * d.val + k.val) = State.reset.params.font[d][k]) ∧
  (∀ a, 80 ≤ a → State.reset.byteAt a = 0)

/-- Initialize (R116, R117): everything is reset, a ROM that fits stands unmodified from 0x200, and one that does not leaves no byte and
halts the machine. -/
def Obligations.InitializeResetsAndLoads : Prop :=
  ∀ (s t : State) (rom : List Byte), t = State.initRom rom s →
    (∀ x, t.getV x = 0) ∧ t.index = 0 ∧ t.pc = 0x200 ∧ t.sp = 0 ∧ (∀ j : Fin 16, t.stack[j] = 0) ∧
    t.dt = 0 ∧ t.st = 0 ∧ (∀ r c, t.fb.pixel r c = false) ∧ (∀ k : Fin 16, t.keys[k] = false) ∧
    t.await = .idle ∧
    (∀ (d : Fin 16) (k : Fin 5), t.byteAt (5 * d.val + k.val) = s.params.font[d][k]) ∧
    (∀ a, 80 ≤ a → a < 0x200 → t.byteAt a = 0) ∧
    (rom.length ≤ s.memSize - 0x200 →
      t.run = .running ∧
      (∀ k, (h : k < rom.length) → t.byteAt (0x200 + k) = rom[k]) ∧
      (∀ a, 0x200 + rom.length ≤ a → t.byteAt a = 0)) ∧
    (s.memSize - 0x200 < rom.length →
      t.run = .halted ⟨.memoryOverflow, 0x200, none, some (BitVec.ofNat 16 s.memSize)⟩ ∧
      (∀ a, 0x200 ≤ a → t.byteAt a = 0))

/-- A pending Initialize is one step of the machine; the parameters, the model's own draw counter and the host's later operations stand
(the model's choice: log entries 1, 4 and 6). -/
def Obligations.PendingInitializeIsOneStep : Prop :=
  ∀ (s : State) (rom : List Byte) (rest : List HostOp),
    step { s with host := .initRom rom :: rest } = .next (State.initRom rom { s with host := rest }) ∧
    (State.initRom rom s).params = s.params ∧ (State.initRom rom s).draws = s.draws ∧ (State.initRom rom s).host = s.host

/-- Tick (R104): on a running machine each timer is lowered by 1 unless it is 0, and nothing else changes; on a halted one nothing
changes at all. -/
def Obligations.TickLowersEachTimerToZero : Prop :=
  ∀ s : State,
    (s.run = .running →
      s.tick.dt.toNat = s.dt.toNat - 1 ∧ s.tick.st.toNat = s.st.toNat - 1 ∧
      s.tick = { s with dt := s.tick.dt, st := s.tick.st }) ∧
    (∀ r, s.run = .halted r → s.tick = s)

/-- After k ticks each timer of a running machine is lowered by k and has stopped at 0 (R22, R104). -/
def Obligations.TimersAfterManyTicks : Prop :=
  ∀ (k : Nat) (s : State), s.run = .running →
    (State.tick^[k] s).dt.toNat = s.dt.toNat - k ∧ (State.tick^[k] s).st.toNat = s.st.toNat - k

/-- LatchKeys sets KEYS to the 16 entries the host gives and changes nothing else, whatever state the machine is in (R108), and what
ends a frame is the Tick and that latch: DT and ST as Tick leaves them, KEYS the frame's keys, nothing else changed (R106). That the
end of a pending frame is one step is the model's choice (log entry 6). -/
def Obligations.FrameEndTicksAndLatchesTheKeys : Prop :=
  ∀ (s : State) (k : Keypad),
    s.latchKeys k = { s with keys := k } ∧
    s.endFrame k = { s with dt := s.tick.dt, st := s.tick.st, keys := k } ∧
    ∀ rest, step { s with host := .frame 0 k :: rest } =
      .next { s with dt := s.tick.dt, st := s.tick.st, keys := k, host := rest }

/-- A pending Frame, run by the machine's own steps, is the Frame of R106: N Steps, then Tick, then LatchKeys. -/
def Obligations.PendingFrameRunsAsTheSpecsFrame : Prop :=
  ∀ (n : Nat) (keys : Keypad) (s : State) (rest : List HostOp),
    Sys2Proof.core.run (n + 1) { s with host := .frame n keys :: rest } = frame n keys { s with host := rest }

/-- A halted machine (R98): a Step and a Tick change nothing, LatchKeys still writes KEYS, so a Frame does only that, and no step but a
pending Initialize makes the machine run again. -/
def Obligations.HaltedMachineWaitsForInitialize : Prop :=
  ∀ (s : State) (r : FaultRecord), s.run = .halted r →
    stepInstr s = .next s ∧ s.tick = s ∧
    (∀ k, (s.latchKeys k).keys = k ∧ s.latchKeys k = { s with keys := (s.latchKeys k).keys }) ∧
    (∀ n k, frame n k s = .next { s with keys := k }) ∧
    (∀ t, step s = .next t → t.run = .running → ∃ rom rest, s.host = .initRom rom :: rest)

/-- An instruction placed by withFetchWord is the one the next step runs, whatever the state was (R40, R56);
`memOk` is the model's own canonical form (log entry 7). -/
def Obligations.PlacedWordRunsNext : Prop :=
  ∀ (s : State) (w : Word) (i : Instr), s.memOk → decodeWord w = some i →
    step (s.withFetchWord 16 w.toNat) = exec i (s.withFetchWord 16 w.toNat)

/-! ## Display -/

/-- 00E0 CLS (R61). -/
def Obligations.ClsClearsEveryPixel : Prop :=
  decodeWord 0x00E0 = some .cls ∧
  ∀ s : State, ∃ t, exec .cls s = .next t ∧ (∀ r c, t.fb.pixel r c = false) ∧
    t = { s with fb := t.fb, pc := s.pc + 2 } ∧ sameMemory s t

/-- DXYN DRW (R62). -/
def Obligations.DrwXorsTheClippedSprite : Prop :=
  ∀ (x y n : Nibble) (s : State),
    decodeWord (formatXYN 0xD x y n) = some (.drw x y n) ∧
    (n = 0 ∨ s.index.toNat + n.toNat - 1 < s.memSize →
      ∃ t, exec (.drw x y n) s = .next t ∧
        (∀ r c, r < 32 → c < 64 → t.fb.pixel r c = (s.fb.pixel r c ^^ s.spriteAt x y n r c)) ∧
        (s.collides x y n → t.getV 0xF = 1) ∧ (¬ s.collides x y n → t.getV 0xF = 0) ∧
        sameRegsBut [0xF] s t ∧ t.pc = s.pc + 2 ∧
        t = { s with fb := t.fb, v := t.v, pc := t.pc } ∧ sameMemory s t) ∧
    (n ≠ 0 → s.memSize ≤ s.index.toNat + n.toNat - 1 →
      exec (.drw x y n) s = .next
        (haltedBy s (.drw x y n) .memoryOverflow (some (BitVec.ofNat 16 (max s.index.toNat s.memSize)))))

/-- Drawing the same sprite at the same place twice restores the framebuffer, and the second draw collides exactly if the first turned
some pixel from 0 to 1 (R62, corner case, as its pseudocode gives it: log entry 13; x and y other than F, whose value the first
draw overwrites). -/
def Obligations.DrawingTwiceRestoresThePicture : Prop :=
  ∀ (x y n : Nibble) (s : State), x ≠ 0xF → y ≠ 0xF → s.index.toNat + n.toNat ≤ s.memSize →
    ∃ t u, exec (.drw x y n) s = .next t ∧ exec (.drw x y n) t = .next u ∧ u.fb = s.fb ∧
      ((∃ r c, r < 32 ∧ c < 64 ∧ s.spriteAt x y n r c = true ∧ s.fb.pixel r c = false) → u.getV 0xF = 1) ∧
      ((∀ r c, r < 32 → c < 64 → s.spriteAt x y n r c = true → s.fb.pixel r c = true) → u.getV 0xF = 0)

/-! ## Control transfer -/

/-- 00EE RET (R63). -/
def Obligations.RetPopsTheReturnAddress : Prop :=
  decodeWord 0x00EE = some .ret ∧
  ∀ s : State,
    (∀ j : Fin 16, s.sp.val = j.val + 1 →
      exec .ret s = .next { s with sp := j.castSucc, pc := s.stack[j] }) ∧
    (s.sp = 0 → exec .ret s = .next (haltedBy s .ret .stackUnderflow none))

/-- 1NNN JP (R64). -/
def Obligations.JpSetsPc : Prop :=
  ∀ (nnn : Addr12) (s : State),
    decodeWord (formatA 0x1 nnn) = some (.jp nnn) ∧
    ∃ t, exec (.jp nnn) s = .next t ∧ t.pc.toNat = nnn.toNat ∧ onlyPc s t

/-- 2NNN CALL (R65): the value pushed is PC + 2, as the rule decides (92_eei_decisions.md D6). -/
def Obligations.CallPushesTheNextAddress : Prop :=
  ∀ (nnn : Addr12) (s : State),
    decodeWord (formatA 0x2 nnn) = some (.call nnn) ∧
    (∀ j : Fin 16, s.sp = j.castSucc →
      ∃ t, exec (.call nnn) s = .next t ∧ t.stack[j] = s.pc + 2 ∧ (∀ k : Fin 16, k ≠ j → t.stack[k] = s.stack[k]) ∧
        t.sp = j.succ ∧ t.pc.toNat = nnn.toNat ∧
        t = { s with stack := t.stack, sp := t.sp, pc := t.pc } ∧ sameMemory s t) ∧
    (s.sp = 16 → exec (.call nnn) s = .next (haltedBy s (.call nnn) .stackOverflow none))

/-- A return executed with the stack as a call left it resumes after the call, whatever else has happened (R63, R65). -/
def Obligations.ReturnResumesAfterTheCall : Prop :=
  ∀ (nnn : Addr12) (s : State), s.sp ≠ 16 →
    ∃ t, exec (.call nnn) s = .next t ∧
      ∀ u : State, u.sp = t.sp → u.stack = t.stack → exec .ret u = .next { u with sp := s.sp, pc := s.pc + 2 }

/-- BNNN JP_V0 (R66): the sum is not masked. -/
def Obligations.JpV0AddsWithoutMask : Prop :=
  ∀ (nnn : Addr12) (s : State),
    decodeWord (formatA 0xB nnn) = some (.jpV0 nnn) ∧
    ∃ t, exec (.jpV0 nnn) s = .next t ∧ t.pc.toNat = (s.getV 0).toNat + nnn.toNat ∧ onlyPc s t

/-- 3XNN, 4XNN, 5XY0, 9XY0: the skips (R67 to R70). -/
def Obligations.RegisterSkipsFollowTheirCondition : Prop :=
  ∀ (x y : Nibble) (nn : Byte) (s : State),
    (decodeWord (formatXB 0x3 x nn) = some (.seImm x nn) ∧ skipsWhen (.seImm x nn) s (s.getV x = nn)) ∧
    (decodeWord (formatXB 0x4 x nn) = some (.sneImm x nn) ∧ skipsWhen (.sneImm x nn) s (s.getV x ≠ nn)) ∧
    (decodeWord (formatXYN 0x5 x y 0) = some (.seReg x y) ∧ skipsWhen (.seReg x y) s (s.getV x = s.getV y)) ∧
    (decodeWord (formatXYN 0x9 x y 0) = some (.sneReg x y) ∧ skipsWhen (.sneReg x y) s (s.getV x ≠ s.getV y)) ∧
    (∀ n : Nibble, n ≠ 0 → decodeWord (formatXYN 0x5 x y n) = none ∧ decodeWord (formatXYN 0x9 x y n) = none)

/-! ## Arithmetic and logic -/

/-- 6XNN LD_IMM and 7XNN ADD_IMM (R71, R72): no flag. -/
def Obligations.ImmediateLoadAndAdd : Prop :=
  ∀ (x : Nibble) (nn : Byte) (s : State),
    (decodeWord (formatXB 0x6 x nn) = some (.ldImm x nn) ∧ setsReg (.ldImm x nn) s x nn.toNat) ∧
    (decodeWord (formatXB 0x7 x nn) = some (.addImm x nn) ∧
      setsReg (.addImm x nn) s x (((s.getV x).toNat + nn.toNat) % 256))

/-- 8XY0 to 8XY3: copy, OR, AND, XOR (R73 to R76): no flag. -/
def Obligations.CopyAndLogic : Prop :=
  ∀ (x y : Nibble) (s : State),
    (decodeWord (formatXYN 0x8 x y 0x0) = some (.ldReg x y) ∧ setsReg (.ldReg x y) s x (s.getV y).toNat) ∧
    (decodeWord (formatXYN 0x8 x y 0x1) = some (.or x y) ∧
      setsReg (.or x y) s x ((s.getV x).toNat ||| (s.getV y).toNat)) ∧
    (decodeWord (formatXYN 0x8 x y 0x2) = some (.and x y) ∧
      setsReg (.and x y) s x ((s.getV x).toNat &&& (s.getV y).toNat)) ∧
    (decodeWord (formatXYN 0x8 x y 0x3) = some (.xor x y) ∧
      setsReg (.xor x y) s x ((s.getV x).toNat ^^^ (s.getV y).toNat))

/-- 8XY4 ADD_REG (R77). -/
def Obligations.AddRegSetsSumAndCarry : Prop :=
  ∀ (x y : Nibble) (s : State),
    decodeWord (formatXYN 0x8 x y 0x4) = some (.addReg x y) ∧
    setsRegAndFlag (.addReg x y) s x (((s.getV x).toNat + (s.getV y).toNat) % 256)
      (255 < (s.getV x).toNat + (s.getV y).toNat)

/-- 8XY5 SUB (R78): the flag is the strict comparison. -/
def Obligations.SubSetsDifferenceAndGreater : Prop :=
  ∀ (x y : Nibble) (s : State),
    decodeWord (formatXYN 0x8 x y 0x5) = some (.sub x y) ∧
    setsRegAndFlag (.sub x y) s x (((s.getV x).toNat + 256 - (s.getV y).toNat) % 256)
      ((s.getV x).toNat > (s.getV y).toNat)

/-- 8XY6 SHR (R79): V[x] is shifted and y is ignored. -/
def Obligations.ShrHalvesAndKeepsTheLowBit : Prop :=
  ∀ (x y : Nibble) (s : State),
    decodeWord (formatXYN 0x8 x y 0x6) = some (.shr x y) ∧
    setsRegAndFlag (.shr x y) s x ((s.getV x).toNat / 2) ((s.getV x).toNat % 2 = 1)

/-- 8XY7 SUBN (R80): the flag is the strict comparison. -/
def Obligations.SubnSetsReversedDifferenceAndGreater : Prop :=
  ∀ (x y : Nibble) (s : State),
    decodeWord (formatXYN 0x8 x y 0x7) = some (.subn x y) ∧
    setsRegAndFlag (.subn x y) s x (((s.getV y).toNat + 256 - (s.getV x).toNat) % 256)
      ((s.getV y).toNat > (s.getV x).toNat)

/-- 8XYE SHL (R81): V[x] is shifted and y is ignored. -/
def Obligations.ShlDoublesAndKeepsTheHighBit : Prop :=
  ∀ (x y : Nibble) (s : State),
    decodeWord (formatXYN 0x8 x y 0xE) = some (.shl x y) ∧
    setsRegAndFlag (.shl x y) s x ((s.getV x).toNat * 2 % 256) ((s.getV x).toNat / 128 = 1)

/-! ## Index register and memory -/

/-- ANNN LD_I (R82). -/
def Obligations.LdISetsTheIndex : Prop :=
  ∀ (nnn : Addr12) (s : State),
    decodeWord (formatA 0xA nnn) = some (.ldI nnn) ∧
    ∃ t, exec (.ldI nnn) s = .next t ∧ t.index.toNat = nnn.toNat ∧ t.pc = s.pc + 2 ∧
      t = { s with index := t.index, pc := t.pc } ∧ sameMemory s t

/-- FX1E ADD_I_VX (R83): the flag is of the unwrapped sum and is written after V[x] is read, x = F included. -/
def Obligations.AddIVxAddsAndFlagsPast0xFFF : Prop :=
  ∀ (x : Nibble) (s : State),
    decodeWord (formatXB 0xF x 0x1E) = some (.addIVx x) ∧
    ∃ t, exec (.addIVx x) s = .next t ∧ t.index.toNat = (s.index.toNat + (s.getV x).toNat) % 65536 ∧
      (0xFFF < s.index.toNat + (s.getV x).toNat → t.getV 0xF = 1) ∧
      (s.index.toNat + (s.getV x).toNat ≤ 0xFFF → t.getV 0xF = 0) ∧
      sameRegsBut [0xF] s t ∧ t.pc = s.pc + 2 ∧
      t = { s with index := t.index, v := t.v, pc := t.pc } ∧ sameMemory s t

/-- FX29 LD_F_VX (R84): V[x] is not masked to 4 bits. -/
def Obligations.LdFVxPointsAtTheGlyph : Prop :=
  ∀ (x : Nibble) (s : State),
    decodeWord (formatXB 0xF x 0x29) = some (.ldFVx x) ∧
    ∃ t, exec (.ldFVx x) s = .next t ∧ t.index.toNat = (s.getV x).toNat * 5 ∧ t.pc = s.pc + 2 ∧
      t = { s with index := t.index, pc := t.pc } ∧ sameMemory s t

/-- FX33 LD_B_VX (R85). Where a stored byte is read back, `memOk` is the model's own canonical form (log entry 7), kept by every step. -/
def Obligations.LdBVxStoresTheDecimalDigits : Prop :=
  ∀ (x : Nibble) (s : State),
    decodeWord (formatXB 0xF x 0x33) = some (.ldBVx x) ∧
    (s.index.toNat + 2 < s.memSize →
      ∃ t, exec (.ldBVx x) s = .next t ∧
        (s.memOk →
          (t.byteAt s.index.toNat).toNat = (s.getV x).toNat / 100 ∧
          (t.byteAt (s.index.toNat + 1)).toNat = (s.getV x).toNat / 10 % 10 ∧
          (t.byteAt (s.index.toNat + 2)).toNat = (s.getV x).toNat % 10) ∧
        sameMemoryOutside s.index.toNat 3 s t ∧ t = { s with mem := t.mem, pc := s.pc + 2 }) ∧
    (s.memSize ≤ s.index.toNat + 2 →
      exec (.ldBVx x) s = .next
        (haltedBy s (.ldBVx x) .memoryOverflow (some (BitVec.ofNat 16 (max s.index.toNat s.memSize)))))

/-- FX55 LD_MEM_VX (R86). Where a stored byte is read back, `memOk` is as in the statement before. -/
def Obligations.LdMemVxStoresTheRegisters : Prop :=
  ∀ (x : Nibble) (s : State),
    decodeWord (formatXB 0xF x 0x55) = some (.ldMemVx x) ∧
    (s.index.toNat + x.toNat < s.memSize →
      ∃ t, exec (.ldMemVx x) s = .next t ∧
        (s.memOk → ∀ z : Nibble, z.toNat ≤ x.toNat → t.byteAt (s.index.toNat + z.toNat) = s.getV z) ∧
        sameMemoryOutside s.index.toNat (x.toNat + 1) s t ∧
        t.index.toNat = s.index.toNat + x.toNat + 1 ∧ t.pc = s.pc + 2 ∧
        t = { s with mem := t.mem, index := t.index, pc := t.pc }) ∧
    (s.memSize ≤ s.index.toNat + x.toNat →
      exec (.ldMemVx x) s = .next
        (haltedBy s (.ldMemVx x) .memoryOverflow (some (BitVec.ofNat 16 (max s.index.toNat s.memSize)))))

/-- FX65 LD_VX_MEM (R87). -/
def Obligations.LdVxMemLoadsTheRegisters : Prop :=
  ∀ (x : Nibble) (s : State),
    decodeWord (formatXB 0xF x 0x65) = some (.ldVxMem x) ∧
    (s.index.toNat + x.toNat < s.memSize →
      ∃ t, exec (.ldVxMem x) s = .next t ∧
        (∀ z : Nibble, z.toNat ≤ x.toNat → t.getV z = s.byteAt (s.index.toNat + z.toNat)) ∧
        (∀ z : Nibble, x.toNat < z.toNat → t.getV z = s.getV z) ∧
        t.index.toNat = s.index.toNat + x.toNat + 1 ∧ t.pc = s.pc + 2 ∧
        t = { s with v := t.v, index := t.index, pc := t.pc } ∧ sameMemory s t) ∧
    (s.memSize ≤ s.index.toNat + x.toNat →
      exec (.ldVxMem x) s = .next
        (haltedBy s (.ldVxMem x) .memoryOverflow (some (BitVec.ofNat 16 (max s.index.toNat s.memSize)))))

/-! ## Random and timers -/

/-- CXNN RND (R88): V[x] is the draw AND nn, for whatever byte the draw returns. The draw is the model's free value (log entry 4):
the next state holds it at its counter, which the step advances, and no byte is chosen. -/
def Obligations.RndMasksOneDraw : Prop :=
  ∀ (x : Nibble) (nn : Byte) (s : State),
    ∃ t, exec (.rnd x nn) s = .next t ∧ t.getV x = (Config.rand8 s.draws &&& nn) ∧ sameRegsBut [x] s t ∧
      t.draws = s.draws + 1 ∧ t.pc = s.pc + 2 ∧ t = { s with v := t.v, pc := t.pc, draws := t.draws } ∧ sameMemory s t

/-- FX07 LD_VX_DT (R89). -/
def Obligations.LdVxDtReadsTheDelayTimer : Prop :=
  ∀ (x : Nibble) (s : State),
    decodeWord (formatXB 0xF x 0x07) = some (.ldVxDt x) ∧ setsReg (.ldVxDt x) s x s.dt.toNat

/-- FX15 LD_DT_VX (R90). -/
def Obligations.LdDtVxSetsTheDelayTimer : Prop :=
  ∀ (x : Nibble) (s : State),
    decodeWord (formatXB 0xF x 0x15) = some (.ldDtVx x) ∧
    exec (.ldDtVx x) s = .next { s with dt := s.getV x, pc := s.pc + 2 }

/-- FX18 LD_ST_VX (R91), under both values of SOUND_TIMER_SRC. -/
def Obligations.LdStVxSetsTheSoundTimer : Prop :=
  ∀ (x : Nibble) (s : State),
    decodeWord (formatXB 0xF x 0x18) = some (.ldStVx x) ∧
    (soundSource s.params = .nField → exec (.ldStVx x) s = .next { s with st := s.getV 8, pc := s.pc + 2 }) ∧
    (soundSource s.params = .xField → exec (.ldStVx x) s = .next { s with st := s.getV x, pc := s.pc + 2 })

/-! ## Keypad -/

/-- EX9E SKP and EXA1 SKNP (R92, R93), under both values of KEY_INDEX_POLICY. -/
def Obligations.KeySkipsConsultTheLatch : Prop :=
  ∀ (x : Nibble) (s : State),
    decodeWord (formatXB 0xE x 0x9E) = some (.skp x) ∧ decodeWord (formatXB 0xE x 0xA1) = some (.sknp x) ∧
    (∀ k : Fin 16, (s.getV x).toNat = k.val →
      skipsWhen (.skp x) s (s.keys[k] = true) ∧ skipsWhen (.sknp x) s (s.keys[k] = false)) ∧
    (16 ≤ (s.getV x).toNat → s.params.keyIndexPolicy = .notPressed →
      skipsWhen (.skp x) s False ∧ skipsWhen (.sknp x) s True) ∧
    (16 ≤ (s.getV x).toNat → s.params.keyIndexPolicy = .fault →
      exec (.skp x) s = .next
        (haltedBy s (.skp x) .keyIndexOutOfRange (some (BitVec.ofNat 16 (s.getV x).toNat))) ∧
      exec (.sknp x) s = .next
        (haltedBy s (.sknp x) .keyIndexOutOfRange (some (BitVec.ofNat 16 (s.getV x).toNat))))

/-- FX0A LD_VX_K (R94): the await-key state machine, in both modes. -/
def Obligations.AwaitKeyStateMachine : Prop :=
  ∀ (x : Nibble) (s : State),
    decodeWord (formatXB 0xF x 0x0A) = some (.ldVxK x) ∧
    (s.await = .idle → (∀ k : Fin 16, s.keys[k] = false) → exec (.ldVxK x) s = .next s) ∧
    (∀ k : Fin 16, s.await = .idle → s.keys[k] = true → (∀ j : Fin 16, j < k → s.keys[j] = false) →
      (s.params.awaitKeyMode = .level → setsReg (.ldVxK x) s x k.val) ∧
      (s.params.awaitKeyMode = .release → exec (.ldVxK x) s = .next { s with await := .keyObserved k })) ∧
    (∀ k : Fin 16, s.await = .keyObserved k → s.keys[k] = true → exec (.ldVxK x) s = .next s) ∧
    (∀ k : Fin 16, s.await = .keyObserved k → s.keys[k] = false →
      ∃ t, exec (.ldVxK x) s = .next t ∧ (t.getV x).toNat = k.val ∧ sameRegsBut [x] s t ∧ t.await = .idle ∧
        t.pc = s.pc + 2 ∧ t = { s with v := t.v, await := t.await, pc := t.pc } ∧ sameMemory s t)
end

