-- ==== Sys2Proof/Laws/Encoding.lean ====
section
/-! SUPPORT. The fields of a composed word are the fields it was composed of, and a word is composed of its fields: what proofs
about the decoder and the encoder cite instead of unfolding bits (30_encoding.md R49, R51). -/

namespace Sys2Proof

@[simp] theorem opField_formatA (op : Nibble) (nnn : Addr12) : opField (formatA op nnn) = op := by
  apply BitVec.eq_of_toNat_eq
  simp only [opField, formatA, BitVec.extractLsb'_toNat, BitVec.toNat_ofNat, Nat.shiftRight_eq_div_pow]
  omega

@[simp] theorem nnnField_formatA (op : Nibble) (nnn : Addr12) : nnnField (formatA op nnn) = nnn := by
  apply BitVec.eq_of_toNat_eq
  simp only [nnnField, formatA, BitVec.extractLsb'_toNat, BitVec.toNat_ofNat, Nat.shiftRight_eq_div_pow]
  omega

@[simp] theorem opField_formatXB (op x : Nibble) (nn : Byte) : opField (formatXB op x nn) = op := by
  apply BitVec.eq_of_toNat_eq
  simp only [opField, formatXB, BitVec.extractLsb'_toNat, BitVec.toNat_ofNat, Nat.shiftRight_eq_div_pow]
  omega

@[simp] theorem xField_formatXB (op x : Nibble) (nn : Byte) : xField (formatXB op x nn) = x := by
  apply BitVec.eq_of_toNat_eq
  simp only [xField, formatXB, BitVec.extractLsb'_toNat, BitVec.toNat_ofNat, Nat.shiftRight_eq_div_pow]
  omega

@[simp] theorem nnField_formatXB (op x : Nibble) (nn : Byte) : nnField (formatXB op x nn) = nn := by
  apply BitVec.eq_of_toNat_eq
  simp only [nnField, formatXB, BitVec.extractLsb'_toNat, BitVec.toNat_ofNat, Nat.shiftRight_eq_div_pow]
  omega

@[simp] theorem opField_formatXYN (op x y n : Nibble) : opField (formatXYN op x y n) = op := by
  apply BitVec.eq_of_toNat_eq
  simp only [opField, formatXYN, BitVec.extractLsb'_toNat, BitVec.toNat_ofNat, Nat.shiftRight_eq_div_pow]
  omega

@[simp] theorem xField_formatXYN (op x y n : Nibble) : xField (formatXYN op x y n) = x := by
  apply BitVec.eq_of_toNat_eq
  simp only [xField, formatXYN, BitVec.extractLsb'_toNat, BitVec.toNat_ofNat, Nat.shiftRight_eq_div_pow]
  omega

@[simp] theorem yField_formatXYN (op x y n : Nibble) : yField (formatXYN op x y n) = y := by
  apply BitVec.eq_of_toNat_eq
  simp only [yField, formatXYN, BitVec.extractLsb'_toNat, BitVec.toNat_ofNat, Nat.shiftRight_eq_div_pow]
  omega

@[simp] theorem nField_formatXYN (op x y n : Nibble) : nField (formatXYN op x y n) = n := by
  apply BitVec.eq_of_toNat_eq
  simp only [nField, formatXYN, BitVec.extractLsb'_toNat, BitVec.toNat_ofNat, Nat.shiftRight_eq_div_pow]
  omega

/-- A word is its op nibble and its nnn field. -/
theorem formatA_fields (w : Word) : formatA (opField w) (nnnField w) = w := by
  apply BitVec.eq_of_toNat_eq
  have := w.isLt
  simp only [formatA, opField, nnnField, BitVec.extractLsb'_toNat, BitVec.toNat_ofNat, Nat.shiftRight_eq_div_pow]
  omega

/-- A word is its op nibble, its x field and its nn field. -/
theorem formatXB_fields (w : Word) : formatXB (opField w) (xField w) (nnField w) = w := by
  apply BitVec.eq_of_toNat_eq
  have := w.isLt
  simp only [formatXB, opField, xField, nnField, BitVec.extractLsb'_toNat, BitVec.toNat_ofNat, Nat.shiftRight_eq_div_pow]
  omega

/-- A word is its four nibbles. -/
theorem formatXYN_fields (w : Word) : formatXYN (opField w) (xField w) (yField w) (nField w) = w := by
  apply BitVec.eq_of_toNat_eq
  have := w.isLt
  simp only [formatXYN, opField, xField, yField, nField, BitVec.extractLsb'_toNat, BitVec.toNat_ofNat, Nat.shiftRight_eq_div_pow]
  omega

/-- A word is its two bytes, the high one first (R40). -/
@[simp] theorem wordOfBytes_bytes (w : Word) : wordOfBytes (highByte w) (lowByte w) = w := by
  apply BitVec.eq_of_toNat_eq
  have := w.isLt
  simp only [wordOfBytes, highByte, lowByte, BitVec.extractLsb'_toNat, BitVec.toNat_ofNat, Nat.shiftRight_eq_div_pow]
  omega

@[simp] theorem highByte_wordOfBytes (hi lo : Byte) : highByte (wordOfBytes hi lo) = hi := by
  apply BitVec.eq_of_toNat_eq
  simp only [highByte, wordOfBytes, BitVec.extractLsb'_toNat, BitVec.toNat_ofNat, Nat.shiftRight_eq_div_pow]
  have := hi.isLt
  have := lo.isLt
  omega

@[simp] theorem lowByte_wordOfBytes (hi lo : Byte) : lowByte (wordOfBytes hi lo) = lo := by
  apply BitVec.eq_of_toNat_eq
  simp only [lowByte, wordOfBytes, BitVec.extractLsb'_toNat, BitVec.toNat_ofNat, Nat.shiftRight_eq_div_pow]
  omega

/-- The bits of a word under the mask of formats A, XB and XYN. -/
theorem and_maskOp (w : Word) : w &&& 0xF000 = formatA (opField w) 0 := by
  have h : w &&& (0xF000 : Word) = (w >>> 12) <<< 12 := by
    ext i hi; interval_cases i <;> simp
  have hw := w.isLt
  rw [h]
  apply BitVec.eq_of_toNat_eq
  simp [formatA, opField, Nat.shiftRight_eq_div_pow, Nat.shiftLeft_eq]
  omega

/-- The bits of a word under the mask of format XY. -/
theorem and_maskOpN (w : Word) : w &&& 0xF00F = formatXYN (opField w) 0 0 (nField w) := by
  have h : w &&& (0xF00F : Word) = (w >>> 12) <<< 12 ||| (w <<< 12) >>> 12 := by
    ext i hi; interval_cases i <;> simp
  have h0 : (w >>> 12) <<< 12 &&& (w <<< 12) >>> 12 = 0 := by
    ext i hi; interval_cases i <;> simp
  have hw := w.isLt
  rw [h, ← BitVec.add_eq_or_of_and_eq_zero _ _ h0]
  apply BitVec.eq_of_toNat_eq
  simp [formatXYN, opField, nField, Nat.shiftRight_eq_div_pow, Nat.shiftLeft_eq]
  omega

/-- The bits of a word under the mask of format X. -/
theorem and_maskOpNN (w : Word) : w &&& 0xF0FF = formatXB (opField w) 0 (nnField w) := by
  have h : w &&& (0xF0FF : Word) = (w >>> 12) <<< 12 ||| (w <<< 8) >>> 8 := by
    ext i hi; interval_cases i <;> simp
  have h0 : (w >>> 12) <<< 12 &&& (w <<< 8) >>> 8 = 0 := by
    ext i hi; interval_cases i <;> simp
  have hw := w.isLt
  rw [h, ← BitVec.add_eq_or_of_and_eq_zero _ _ h0]
  apply BitVec.eq_of_toNat_eq
  simp [formatXB, opField, nnField, Nat.shiftRight_eq_div_pow, Nat.shiftLeft_eq]
  omega

/-- A word is valid when one named row of the table selects it. -/
theorem wellFormedWord_of_row {w : Word} (r : OpcodeRow) (hr : r ∈ OpcodeRow.table) (h : w &&& r.mask = r.bits) :
    wellFormedWord w = true :=
  List.any_eq_true.2 ⟨r, hr, by simp [OpcodeRow.selects, h]⟩

/-- Format A: the table has the op nibble's row. -/
theorem wellFormedWord_formatA (op : Nibble) (nnn : Addr12) (h : ⟨formatA op 0, 0xF000⟩ ∈ OpcodeRow.table) :
    wellFormedWord (formatA op nnn) = true :=
  wellFormedWord_of_row _ h ((and_maskOp _).trans (by rw [opField_formatA]))

/-- Format XB: the table has the op nibble's row. -/
theorem wellFormedWord_formatXB (op x : Nibble) (nn : Byte) (h : ⟨formatA op 0, 0xF000⟩ ∈ OpcodeRow.table) :
    wellFormedWord (formatXB op x nn) = true :=
  wellFormedWord_of_row _ h ((and_maskOp _).trans (by rw [opField_formatXB]))

/-- Format XYN: the table has the op nibble's row. -/
theorem wellFormedWord_formatXYN (op x y n : Nibble) (h : ⟨formatA op 0, 0xF000⟩ ∈ OpcodeRow.table) :
    wellFormedWord (formatXYN op x y n) = true :=
  wellFormedWord_of_row _ h ((and_maskOp _).trans (by rw [opField_formatXYN]))

/-- Format XY: the table has the row of the op nibble and the n nibble. -/
theorem wellFormedWord_formatXY (op x y n : Nibble) (h : ⟨formatXYN op 0 0 n, 0xF00F⟩ ∈ OpcodeRow.table) :
    wellFormedWord (formatXYN op x y n) = true :=
  wellFormedWord_of_row _ h ((and_maskOpN _).trans (by rw [opField_formatXYN, nField_formatXYN]))

/-- Format X: the table has the row of the op nibble and the nn byte. -/
theorem wellFormedWord_formatX (op x : Nibble) (nn : Byte) (h : ⟨formatXB op 0 nn, 0xF0FF⟩ ∈ OpcodeRow.table) :
    wellFormedWord (formatXB op x nn) = true :=
  wellFormedWord_of_row _ h ((and_maskOpNN _).trans (by rw [opField_formatXB, nnField_formatXB]))

end Sys2Proof
end

