-- ==== Sys2Proof/Laws/Memory.lean ====
section
/-! SUPPORT. The laws of memory (20_memory.md R34, R35): a read after a write, and that every operation keeps the canonical form. -/

namespace Sys2Proof.Machine.Memory

variable (font : Font)

/-- A cell in front is what its address reads as. -/
theorem read_cons_same (a : Nat) (u : Byte) (m : Memory) (h : Memory.read font m a = Memory.unlisted font a) :
    Memory.read font (Memory.cons font a u m) a = u := by
  unfold Memory.cons
  split <;> simp_all [Memory.read]

/-- A cell in front changes no other address. -/
theorem read_cons_other (a b : Nat) (u : Byte) (m : Memory) (h : b ≠ a) :
    Memory.read font (Memory.cons font a u m) b = Memory.read font m b := by
  unfold Memory.cons
  split <;> simp [Memory.read, h]

/-- Addresses below every listed one read as unlisted. -/
theorem read_below {size lo a : Nat} {m : Memory} (hm : Memory.wfFrom font size lo m = true) (h : a < lo) :
    Memory.read font m a = Memory.unlisted font a := by
  induction m generalizing lo with
  | nil => rfl
  | cons c m ih =>
    obtain ⟨b, u⟩ := c
    simp only [Memory.wfFrom, Bool.and_eq_true, decide_eq_true_eq] at hm
    have hb : a ≠ b := by omega
    simp only [Memory.read, hb, if_false]
    exact ih hm.2 (by omega)

/-- A well-formed list stays well-formed from a lower bound. -/
theorem wfFrom_mono {size lo lo' : Nat} {m : Memory} (hm : Memory.wfFrom font size lo m = true) (h : lo' ≤ lo) :
    Memory.wfFrom font size lo' m = true := by
  cases m with
  | nil => rfl
  | cons c m =>
    simp only [Memory.wfFrom, Bool.and_eq_true, decide_eq_true_eq] at hm ⊢
    exact ⟨⟨⟨by omega, hm.1.1.2⟩, hm.1.2⟩, hm.2⟩

theorem wfFrom_cons {size lo a : Nat} {u : Byte} {m : Memory} (hm : Memory.wfFrom font size (a + 1) m = true)
    (hlo : lo ≤ a) (ha : a < size) : Memory.wfFrom font size lo (Memory.cons font a u m) = true := by
  unfold Memory.cons
  split
  · exact wfFrom_mono font hm (by omega)
  · rename_i hu
    simp [Memory.wfFrom, hm, hlo, ha, hu]

/-- A write below the size keeps the canonical form. -/
theorem wfFrom_write {size lo a : Nat} {u : Byte} {m : Memory} (hm : Memory.wfFrom font size lo m = true)
    (hlo : lo ≤ a) (ha : a < size) : Memory.wfFrom font size lo (Memory.write font a u m) = true := by
  induction m generalizing lo with
  | nil => exact wfFrom_cons font rfl hlo ha
  | cons c m ih =>
    obtain ⟨b, w⟩ := c
    simp only [Memory.wfFrom, Bool.and_eq_true, decide_eq_true_eq] at hm
    obtain ⟨⟨⟨hb, hbs⟩, hw⟩, hrest⟩ := hm
    simp only [Memory.write]
    split
    · refine wfFrom_cons font ?_ hlo ha
      simp only [Memory.wfFrom, Bool.and_eq_true, decide_eq_true_eq]
      exact ⟨⟨⟨by omega, hbs⟩, hw⟩, hrest⟩
    · split
      · rename_i hab
        subst hab
        exact wfFrom_cons font hrest hlo ha
      · simp only [Memory.wfFrom, Bool.and_eq_true, decide_eq_true_eq]
        exact ⟨⟨⟨hb, hbs⟩, hw⟩, ih hrest (by omega)⟩

/-- A write below the size keeps memory well-formed (20_memory.md R35). -/
theorem wf_write {size a : Nat} {u : Byte} {m : Memory} (hm : Memory.wf font size m = true) (ha : a < size) :
    Memory.wf font size (Memory.write font a u m) = true := wfFrom_write font hm (Nat.zero_le a) ha

/-- Writing a list of bytes that all exist keeps memory well-formed. -/
theorem wf_writeList {size a : Nat} {us : List Byte} {m : Memory} (hm : Memory.wf font size m = true)
    (ha : a + us.length ≤ size) : Memory.wf font size (Memory.writeList font a us m) = true := by
  induction us generalizing a m with
  | nil => exact hm
  | cons u us ih =>
    simp only [List.length_cons] at ha
    exact ih (wf_write font hm (by omega)) (by omega)

/-- A write leaves every other address alone (20_memory.md R35), whatever the memory. -/
theorem read_write_other (a b : Nat) (u : Byte) (m : Memory) (h : b ≠ a) :
    Memory.read font (Memory.write font a u m) b = Memory.read font m b := by
  induction m with
  | nil => exact read_cons_other font a b u [] h
  | cons c m ih =>
    obtain ⟨d, w⟩ := c
    simp only [Memory.write]
    split
    · exact read_cons_other font a b u _ h
    · split
      · rename_i had
        subst had
        simp [read_cons_other font a b u m h, Memory.read, h]
      · simp [Memory.read, ih]

theorem read_writeFrom_same {size lo a : Nat} {u : Byte} {m : Memory} (hm : Memory.wfFrom font size lo m = true) :
    Memory.read font (Memory.write font a u m) a = u := by
  induction m generalizing lo with
  | nil => exact read_cons_same font a u [] rfl
  | cons c m ih =>
    obtain ⟨b, w⟩ := c
    simp only [Memory.wfFrom, Bool.and_eq_true, decide_eq_true_eq] at hm
    simp only [Memory.write]
    split
    · rename_i hlt
      refine read_cons_same font a u _ ?_
      have hne : a ≠ b := by omega
      simp only [Memory.read, hne, if_false]
      exact read_below font hm.2 (by omega)
    · split
      · rename_i hab
        subst hab
        exact read_cons_same font a u m (read_below font hm.2 (by omega))
      · rename_i hab
        simp only [Memory.read, hab, if_false]
        exact ih hm.2

/-- A read after a write to the same address gives the byte written (20_memory.md R45). -/
theorem read_write_same {size a : Nat} {u : Byte} {m : Memory} (hm : Memory.wf font size m = true) :
    Memory.read font (Memory.write font a u m) a = u := read_writeFrom_same font hm

/-- Writing a list of bytes leaves every address outside it alone. -/
theorem read_writeList_other {a b : Nat} {us : List Byte} {m : Memory} (h : b < a ∨ a + us.length ≤ b) :
    Memory.read font (Memory.writeList font a us m) b = Memory.read font m b := by
  induction us generalizing a m with
  | nil => rfl
  | cons u us ih =>
    simp only [List.length_cons] at h
    rw [Memory.writeList, ih (by omega), read_write_other font a b u m (by omega)]

/-- After writing a list of bytes, its k-th byte is at the k-th address. -/
theorem read_writeList_get {size a k : Nat} {us : List Byte} {m : Memory} (hm : Memory.wf font size m = true)
    (hk : k < us.length) (ha : a + us.length ≤ size) :
    Memory.read font (Memory.writeList font a us m) (a + k) = us[k] := by
  induction us generalizing a k m with
  | nil => exact absurd hk (Nat.not_lt_zero k)
  | cons u us ih =>
    simp only [List.length_cons] at hk ha
    cases k with
    | zero =>
      rw [Memory.writeList, read_writeList_other font (Or.inl (by omega))]
      exact read_write_same font hm
    | succ k =>
      rw [Memory.writeList, show a + (k + 1) = a + 1 + k by omega]
      exact ih (wf_write font hm (by omega)) (by omega) (by omega)

end Sys2Proof.Machine.Memory
end

