-- ==== Sys2Proof/Laws/State.lean ====
section
/-! SUPPORT. One lemma per field and update: what each named operation does to each field of the state. Every one is true by
unfolding once; later proofs cite them through simp and unfold no record update. -/

namespace Sys2Proof.Machine.State

variable (s : State)

@[simp] theorem setByte_params (a : Nat) (u : Byte) : (s.setByte a u).params = s.params := rfl
@[simp] theorem setByte_v (a : Nat) (u : Byte) : (s.setByte a u).v = s.v := rfl
@[simp] theorem setByte_index (a : Nat) (u : Byte) : (s.setByte a u).index = s.index := rfl
@[simp] theorem setByte_pc (a : Nat) (u : Byte) : (s.setByte a u).pc = s.pc := rfl
@[simp] theorem setByte_sp (a : Nat) (u : Byte) : (s.setByte a u).sp = s.sp := rfl
@[simp] theorem setByte_stack (a : Nat) (u : Byte) : (s.setByte a u).stack = s.stack := rfl
@[simp] theorem setByte_dt (a : Nat) (u : Byte) : (s.setByte a u).dt = s.dt := rfl
@[simp] theorem setByte_st (a : Nat) (u : Byte) : (s.setByte a u).st = s.st := rfl
@[simp] theorem setByte_mem (a : Nat) (u : Byte) : (s.setByte a u).mem = Memory.write s.params.font a u s.mem := rfl
@[simp] theorem setByte_fb (a : Nat) (u : Byte) : (s.setByte a u).fb = s.fb := rfl
@[simp] theorem setByte_keys (a : Nat) (u : Byte) : (s.setByte a u).keys = s.keys := rfl
@[simp] theorem setByte_await (a : Nat) (u : Byte) : (s.setByte a u).await = s.await := rfl
@[simp] theorem setByte_run (a : Nat) (u : Byte) : (s.setByte a u).run = s.run := rfl
@[simp] theorem setByte_draws (a : Nat) (u : Byte) : (s.setByte a u).draws = s.draws := rfl
@[simp] theorem setByte_host (a : Nat) (u : Byte) : (s.setByte a u).host = s.host := rfl

@[simp] theorem setBytes_params (a : Nat) (us : List Byte) : (s.setBytes a us).params = s.params := rfl
@[simp] theorem setBytes_v (a : Nat) (us : List Byte) : (s.setBytes a us).v = s.v := rfl
@[simp] theorem setBytes_index (a : Nat) (us : List Byte) : (s.setBytes a us).index = s.index := rfl
@[simp] theorem setBytes_pc (a : Nat) (us : List Byte) : (s.setBytes a us).pc = s.pc := rfl
@[simp] theorem setBytes_sp (a : Nat) (us : List Byte) : (s.setBytes a us).sp = s.sp := rfl
@[simp] theorem setBytes_stack (a : Nat) (us : List Byte) : (s.setBytes a us).stack = s.stack := rfl
@[simp] theorem setBytes_dt (a : Nat) (us : List Byte) : (s.setBytes a us).dt = s.dt := rfl
@[simp] theorem setBytes_st (a : Nat) (us : List Byte) : (s.setBytes a us).st = s.st := rfl
@[simp] theorem setBytes_mem (a : Nat) (us : List Byte) : (s.setBytes a us).mem = Memory.writeList s.params.font a us s.mem := rfl
@[simp] theorem setBytes_fb (a : Nat) (us : List Byte) : (s.setBytes a us).fb = s.fb := rfl
@[simp] theorem setBytes_keys (a : Nat) (us : List Byte) : (s.setBytes a us).keys = s.keys := rfl
@[simp] theorem setBytes_await (a : Nat) (us : List Byte) : (s.setBytes a us).await = s.await := rfl
@[simp] theorem setBytes_run (a : Nat) (us : List Byte) : (s.setBytes a us).run = s.run := rfl
@[simp] theorem setBytes_draws (a : Nat) (us : List Byte) : (s.setBytes a us).draws = s.draws := rfl
@[simp] theorem setBytes_host (a : Nat) (us : List Byte) : (s.setBytes a us).host = s.host := rfl

@[simp] theorem setV_params (x : Nibble) (u : Byte) : (s.setV x u).params = s.params := rfl
@[simp] theorem setV_v (x : Nibble) (u : Byte) : (s.setV x u).v = s.v.set x.toNat u x.isLt := rfl
@[simp] theorem setV_index (x : Nibble) (u : Byte) : (s.setV x u).index = s.index := rfl
@[simp] theorem setV_pc (x : Nibble) (u : Byte) : (s.setV x u).pc = s.pc := rfl
@[simp] theorem setV_sp (x : Nibble) (u : Byte) : (s.setV x u).sp = s.sp := rfl
@[simp] theorem setV_stack (x : Nibble) (u : Byte) : (s.setV x u).stack = s.stack := rfl
@[simp] theorem setV_dt (x : Nibble) (u : Byte) : (s.setV x u).dt = s.dt := rfl
@[simp] theorem setV_st (x : Nibble) (u : Byte) : (s.setV x u).st = s.st := rfl
@[simp] theorem setV_mem (x : Nibble) (u : Byte) : (s.setV x u).mem = s.mem := rfl
@[simp] theorem setV_fb (x : Nibble) (u : Byte) : (s.setV x u).fb = s.fb := rfl
@[simp] theorem setV_keys (x : Nibble) (u : Byte) : (s.setV x u).keys = s.keys := rfl
@[simp] theorem setV_await (x : Nibble) (u : Byte) : (s.setV x u).await = s.await := rfl
@[simp] theorem setV_run (x : Nibble) (u : Byte) : (s.setV x u).run = s.run := rfl
@[simp] theorem setV_draws (x : Nibble) (u : Byte) : (s.setV x u).draws = s.draws := rfl
@[simp] theorem setV_host (x : Nibble) (u : Byte) : (s.setV x u).host = s.host := rfl

@[simp] theorem setFlag_params (f : Bool) : (s.setFlag f).params = s.params := rfl
@[simp] theorem setFlag_v (f : Bool) : (s.setFlag f).v = s.v.set 15 (if f then 1 else 0) := rfl
@[simp] theorem setFlag_index (f : Bool) : (s.setFlag f).index = s.index := rfl
@[simp] theorem setFlag_pc (f : Bool) : (s.setFlag f).pc = s.pc := rfl
@[simp] theorem setFlag_sp (f : Bool) : (s.setFlag f).sp = s.sp := rfl
@[simp] theorem setFlag_stack (f : Bool) : (s.setFlag f).stack = s.stack := rfl
@[simp] theorem setFlag_dt (f : Bool) : (s.setFlag f).dt = s.dt := rfl
@[simp] theorem setFlag_st (f : Bool) : (s.setFlag f).st = s.st := rfl
@[simp] theorem setFlag_mem (f : Bool) : (s.setFlag f).mem = s.mem := rfl
@[simp] theorem setFlag_fb (f : Bool) : (s.setFlag f).fb = s.fb := rfl
@[simp] theorem setFlag_keys (f : Bool) : (s.setFlag f).keys = s.keys := rfl
@[simp] theorem setFlag_await (f : Bool) : (s.setFlag f).await = s.await := rfl
@[simp] theorem setFlag_run (f : Bool) : (s.setFlag f).run = s.run := rfl
@[simp] theorem setFlag_draws (f : Bool) : (s.setFlag f).draws = s.draws := rfl
@[simp] theorem setFlag_host (f : Bool) : (s.setFlag f).host = s.host := rfl

@[simp] theorem setIndex_params (w : Word) : (s.setIndex w).params = s.params := rfl
@[simp] theorem setIndex_v (w : Word) : (s.setIndex w).v = s.v := rfl
@[simp] theorem setIndex_index (w : Word) : (s.setIndex w).index = w := rfl
@[simp] theorem setIndex_pc (w : Word) : (s.setIndex w).pc = s.pc := rfl
@[simp] theorem setIndex_sp (w : Word) : (s.setIndex w).sp = s.sp := rfl
@[simp] theorem setIndex_stack (w : Word) : (s.setIndex w).stack = s.stack := rfl
@[simp] theorem setIndex_dt (w : Word) : (s.setIndex w).dt = s.dt := rfl
@[simp] theorem setIndex_st (w : Word) : (s.setIndex w).st = s.st := rfl
@[simp] theorem setIndex_mem (w : Word) : (s.setIndex w).mem = s.mem := rfl
@[simp] theorem setIndex_fb (w : Word) : (s.setIndex w).fb = s.fb := rfl
@[simp] theorem setIndex_keys (w : Word) : (s.setIndex w).keys = s.keys := rfl
@[simp] theorem setIndex_await (w : Word) : (s.setIndex w).await = s.await := rfl
@[simp] theorem setIndex_run (w : Word) : (s.setIndex w).run = s.run := rfl
@[simp] theorem setIndex_draws (w : Word) : (s.setIndex w).draws = s.draws := rfl
@[simp] theorem setIndex_host (w : Word) : (s.setIndex w).host = s.host := rfl

@[simp] theorem setPc_params (w : Word) : (s.setPc w).params = s.params := rfl
@[simp] theorem setPc_v (w : Word) : (s.setPc w).v = s.v := rfl
@[simp] theorem setPc_index (w : Word) : (s.setPc w).index = s.index := rfl
@[simp] theorem setPc_pc (w : Word) : (s.setPc w).pc = w := rfl
@[simp] theorem setPc_sp (w : Word) : (s.setPc w).sp = s.sp := rfl
@[simp] theorem setPc_stack (w : Word) : (s.setPc w).stack = s.stack := rfl
@[simp] theorem setPc_dt (w : Word) : (s.setPc w).dt = s.dt := rfl
@[simp] theorem setPc_st (w : Word) : (s.setPc w).st = s.st := rfl
@[simp] theorem setPc_mem (w : Word) : (s.setPc w).mem = s.mem := rfl
@[simp] theorem setPc_fb (w : Word) : (s.setPc w).fb = s.fb := rfl
@[simp] theorem setPc_keys (w : Word) : (s.setPc w).keys = s.keys := rfl
@[simp] theorem setPc_await (w : Word) : (s.setPc w).await = s.await := rfl
@[simp] theorem setPc_run (w : Word) : (s.setPc w).run = s.run := rfl
@[simp] theorem setPc_draws (w : Word) : (s.setPc w).draws = s.draws := rfl
@[simp] theorem setPc_host (w : Word) : (s.setPc w).host = s.host := rfl

@[simp] theorem advance_params (k : Nat) : (s.advance k).params = s.params := rfl
@[simp] theorem advance_v (k : Nat) : (s.advance k).v = s.v := rfl
@[simp] theorem advance_index (k : Nat) : (s.advance k).index = s.index := rfl
@[simp] theorem advance_pc (k : Nat) : (s.advance k).pc = s.pc + BitVec.ofNat 16 k := rfl
@[simp] theorem advance_sp (k : Nat) : (s.advance k).sp = s.sp := rfl
@[simp] theorem advance_stack (k : Nat) : (s.advance k).stack = s.stack := rfl
@[simp] theorem advance_dt (k : Nat) : (s.advance k).dt = s.dt := rfl
@[simp] theorem advance_st (k : Nat) : (s.advance k).st = s.st := rfl
@[simp] theorem advance_mem (k : Nat) : (s.advance k).mem = s.mem := rfl
@[simp] theorem advance_fb (k : Nat) : (s.advance k).fb = s.fb := rfl
@[simp] theorem advance_keys (k : Nat) : (s.advance k).keys = s.keys := rfl
@[simp] theorem advance_await (k : Nat) : (s.advance k).await = s.await := rfl
@[simp] theorem advance_run (k : Nat) : (s.advance k).run = s.run := rfl
@[simp] theorem advance_draws (k : Nat) : (s.advance k).draws = s.draws := rfl
@[simp] theorem advance_host (k : Nat) : (s.advance k).host = s.host := rfl

@[simp] theorem setDelay_params (u : Byte) : (s.setDelay u).params = s.params := rfl
@[simp] theorem setDelay_v (u : Byte) : (s.setDelay u).v = s.v := rfl
@[simp] theorem setDelay_index (u : Byte) : (s.setDelay u).index = s.index := rfl
@[simp] theorem setDelay_pc (u : Byte) : (s.setDelay u).pc = s.pc := rfl
@[simp] theorem setDelay_sp (u : Byte) : (s.setDelay u).sp = s.sp := rfl
@[simp] theorem setDelay_stack (u : Byte) : (s.setDelay u).stack = s.stack := rfl
@[simp] theorem setDelay_dt (u : Byte) : (s.setDelay u).dt = u := rfl
@[simp] theorem setDelay_st (u : Byte) : (s.setDelay u).st = s.st := rfl
@[simp] theorem setDelay_mem (u : Byte) : (s.setDelay u).mem = s.mem := rfl
@[simp] theorem setDelay_fb (u : Byte) : (s.setDelay u).fb = s.fb := rfl
@[simp] theorem setDelay_keys (u : Byte) : (s.setDelay u).keys = s.keys := rfl
@[simp] theorem setDelay_await (u : Byte) : (s.setDelay u).await = s.await := rfl
@[simp] theorem setDelay_run (u : Byte) : (s.setDelay u).run = s.run := rfl
@[simp] theorem setDelay_draws (u : Byte) : (s.setDelay u).draws = s.draws := rfl
@[simp] theorem setDelay_host (u : Byte) : (s.setDelay u).host = s.host := rfl

@[simp] theorem setSound_params (u : Byte) : (s.setSound u).params = s.params := rfl
@[simp] theorem setSound_v (u : Byte) : (s.setSound u).v = s.v := rfl
@[simp] theorem setSound_index (u : Byte) : (s.setSound u).index = s.index := rfl
@[simp] theorem setSound_pc (u : Byte) : (s.setSound u).pc = s.pc := rfl
@[simp] theorem setSound_sp (u : Byte) : (s.setSound u).sp = s.sp := rfl
@[simp] theorem setSound_stack (u : Byte) : (s.setSound u).stack = s.stack := rfl
@[simp] theorem setSound_dt (u : Byte) : (s.setSound u).dt = s.dt := rfl
@[simp] theorem setSound_st (u : Byte) : (s.setSound u).st = u := rfl
@[simp] theorem setSound_mem (u : Byte) : (s.setSound u).mem = s.mem := rfl
@[simp] theorem setSound_fb (u : Byte) : (s.setSound u).fb = s.fb := rfl
@[simp] theorem setSound_keys (u : Byte) : (s.setSound u).keys = s.keys := rfl
@[simp] theorem setSound_await (u : Byte) : (s.setSound u).await = s.await := rfl
@[simp] theorem setSound_run (u : Byte) : (s.setSound u).run = s.run := rfl
@[simp] theorem setSound_draws (u : Byte) : (s.setSound u).draws = s.draws := rfl
@[simp] theorem setSound_host (u : Byte) : (s.setSound u).host = s.host := rfl

@[simp] theorem setFb_params (f : Framebuffer) : (s.setFb f).params = s.params := rfl
@[simp] theorem setFb_v (f : Framebuffer) : (s.setFb f).v = s.v := rfl
@[simp] theorem setFb_index (f : Framebuffer) : (s.setFb f).index = s.index := rfl
@[simp] theorem setFb_pc (f : Framebuffer) : (s.setFb f).pc = s.pc := rfl
@[simp] theorem setFb_sp (f : Framebuffer) : (s.setFb f).sp = s.sp := rfl
@[simp] theorem setFb_stack (f : Framebuffer) : (s.setFb f).stack = s.stack := rfl
@[simp] theorem setFb_dt (f : Framebuffer) : (s.setFb f).dt = s.dt := rfl
@[simp] theorem setFb_st (f : Framebuffer) : (s.setFb f).st = s.st := rfl
@[simp] theorem setFb_mem (f : Framebuffer) : (s.setFb f).mem = s.mem := rfl
@[simp] theorem setFb_fb (f : Framebuffer) : (s.setFb f).fb = f := rfl
@[simp] theorem setFb_keys (f : Framebuffer) : (s.setFb f).keys = s.keys := rfl
@[simp] theorem setFb_await (f : Framebuffer) : (s.setFb f).await = s.await := rfl
@[simp] theorem setFb_run (f : Framebuffer) : (s.setFb f).run = s.run := rfl
@[simp] theorem setFb_draws (f : Framebuffer) : (s.setFb f).draws = s.draws := rfl
@[simp] theorem setFb_host (f : Framebuffer) : (s.setFb f).host = s.host := rfl

@[simp] theorem setAwait_params (a : Await) : (s.setAwait a).params = s.params := rfl
@[simp] theorem setAwait_v (a : Await) : (s.setAwait a).v = s.v := rfl
@[simp] theorem setAwait_index (a : Await) : (s.setAwait a).index = s.index := rfl
@[simp] theorem setAwait_pc (a : Await) : (s.setAwait a).pc = s.pc := rfl
@[simp] theorem setAwait_sp (a : Await) : (s.setAwait a).sp = s.sp := rfl
@[simp] theorem setAwait_stack (a : Await) : (s.setAwait a).stack = s.stack := rfl
@[simp] theorem setAwait_dt (a : Await) : (s.setAwait a).dt = s.dt := rfl
@[simp] theorem setAwait_st (a : Await) : (s.setAwait a).st = s.st := rfl
@[simp] theorem setAwait_mem (a : Await) : (s.setAwait a).mem = s.mem := rfl
@[simp] theorem setAwait_fb (a : Await) : (s.setAwait a).fb = s.fb := rfl
@[simp] theorem setAwait_keys (a : Await) : (s.setAwait a).keys = s.keys := rfl
@[simp] theorem setAwait_await (a : Await) : (s.setAwait a).await = a := rfl
@[simp] theorem setAwait_run (a : Await) : (s.setAwait a).run = s.run := rfl
@[simp] theorem setAwait_draws (a : Await) : (s.setAwait a).draws = s.draws := rfl
@[simp] theorem setAwait_host (a : Await) : (s.setAwait a).host = s.host := rfl

@[simp] theorem drawn_params : (s.drawn).params = s.params := rfl
@[simp] theorem drawn_v : (s.drawn).v = s.v := rfl
@[simp] theorem drawn_index : (s.drawn).index = s.index := rfl
@[simp] theorem drawn_pc : (s.drawn).pc = s.pc := rfl
@[simp] theorem drawn_sp : (s.drawn).sp = s.sp := rfl
@[simp] theorem drawn_stack : (s.drawn).stack = s.stack := rfl
@[simp] theorem drawn_dt : (s.drawn).dt = s.dt := rfl
@[simp] theorem drawn_st : (s.drawn).st = s.st := rfl
@[simp] theorem drawn_mem : (s.drawn).mem = s.mem := rfl
@[simp] theorem drawn_fb : (s.drawn).fb = s.fb := rfl
@[simp] theorem drawn_keys : (s.drawn).keys = s.keys := rfl
@[simp] theorem drawn_await : (s.drawn).await = s.await := rfl
@[simp] theorem drawn_run : (s.drawn).run = s.run := rfl
@[simp] theorem drawn_draws : (s.drawn).draws = s.draws + 1 := rfl
@[simp] theorem drawn_host : (s.drawn).host = s.host := rfl

@[simp] theorem raise_params (f : Fault) (word : Option Word) (info : Option Nat) : (s.raise f word info).params = s.params := rfl
@[simp] theorem raise_v (f : Fault) (word : Option Word) (info : Option Nat) : (s.raise f word info).v = s.v := rfl
@[simp] theorem raise_index (f : Fault) (word : Option Word) (info : Option Nat) : (s.raise f word info).index = s.index := rfl
@[simp] theorem raise_pc (f : Fault) (word : Option Word) (info : Option Nat) : (s.raise f word info).pc = s.pc := rfl
@[simp] theorem raise_sp (f : Fault) (word : Option Word) (info : Option Nat) : (s.raise f word info).sp = s.sp := rfl
@[simp] theorem raise_stack (f : Fault) (word : Option Word) (info : Option Nat) : (s.raise f word info).stack = s.stack := rfl
@[simp] theorem raise_dt (f : Fault) (word : Option Word) (info : Option Nat) : (s.raise f word info).dt = s.dt := rfl
@[simp] theorem raise_st (f : Fault) (word : Option Word) (info : Option Nat) : (s.raise f word info).st = s.st := rfl
@[simp] theorem raise_mem (f : Fault) (word : Option Word) (info : Option Nat) : (s.raise f word info).mem = s.mem := rfl
@[simp] theorem raise_fb (f : Fault) (word : Option Word) (info : Option Nat) : (s.raise f word info).fb = s.fb := rfl
@[simp] theorem raise_keys (f : Fault) (word : Option Word) (info : Option Nat) : (s.raise f word info).keys = s.keys := rfl
@[simp] theorem raise_await (f : Fault) (word : Option Word) (info : Option Nat) : (s.raise f word info).await = s.await := rfl
@[simp] theorem raise_run (f : Fault) (word : Option Word) (info : Option Nat) : (s.raise f word info).run = .halted ⟨f, s.pc, word, info.map (BitVec.ofNat 16)⟩ := rfl
@[simp] theorem raise_draws (f : Fault) (word : Option Word) (info : Option Nat) : (s.raise f word info).draws = s.draws := rfl
@[simp] theorem raise_host (f : Fault) (word : Option Word) (info : Option Nat) : (s.raise f word info).host = s.host := rfl

@[simp] theorem raiseBy_params (i : Instr) (f : Fault) (info : Option Nat) : (s.raiseBy i f info).params = s.params := rfl
@[simp] theorem raiseBy_v (i : Instr) (f : Fault) (info : Option Nat) : (s.raiseBy i f info).v = s.v := rfl
@[simp] theorem raiseBy_index (i : Instr) (f : Fault) (info : Option Nat) : (s.raiseBy i f info).index = s.index := rfl
@[simp] theorem raiseBy_pc (i : Instr) (f : Fault) (info : Option Nat) : (s.raiseBy i f info).pc = s.pc := rfl
@[simp] theorem raiseBy_sp (i : Instr) (f : Fault) (info : Option Nat) : (s.raiseBy i f info).sp = s.sp := rfl
@[simp] theorem raiseBy_stack (i : Instr) (f : Fault) (info : Option Nat) : (s.raiseBy i f info).stack = s.stack := rfl
@[simp] theorem raiseBy_dt (i : Instr) (f : Fault) (info : Option Nat) : (s.raiseBy i f info).dt = s.dt := rfl
@[simp] theorem raiseBy_st (i : Instr) (f : Fault) (info : Option Nat) : (s.raiseBy i f info).st = s.st := rfl
@[simp] theorem raiseBy_mem (i : Instr) (f : Fault) (info : Option Nat) : (s.raiseBy i f info).mem = s.mem := rfl
@[simp] theorem raiseBy_fb (i : Instr) (f : Fault) (info : Option Nat) : (s.raiseBy i f info).fb = s.fb := rfl
@[simp] theorem raiseBy_keys (i : Instr) (f : Fault) (info : Option Nat) : (s.raiseBy i f info).keys = s.keys := rfl
@[simp] theorem raiseBy_await (i : Instr) (f : Fault) (info : Option Nat) : (s.raiseBy i f info).await = s.await := rfl
@[simp] theorem raiseBy_run (i : Instr) (f : Fault) (info : Option Nat) : (s.raiseBy i f info).run = .halted ⟨f, s.pc, some (encode i), info.map (BitVec.ofNat 16)⟩ := rfl
@[simp] theorem raiseBy_draws (i : Instr) (f : Fault) (info : Option Nat) : (s.raiseBy i f info).draws = s.draws := rfl
@[simp] theorem raiseBy_host (i : Instr) (f : Fault) (info : Option Nat) : (s.raiseBy i f info).host = s.host := rfl

@[simp] theorem latchKeys_params (k : Keypad) : (latchKeys k s).params = s.params := rfl
@[simp] theorem latchKeys_v (k : Keypad) : (latchKeys k s).v = s.v := rfl
@[simp] theorem latchKeys_index (k : Keypad) : (latchKeys k s).index = s.index := rfl
@[simp] theorem latchKeys_pc (k : Keypad) : (latchKeys k s).pc = s.pc := rfl
@[simp] theorem latchKeys_sp (k : Keypad) : (latchKeys k s).sp = s.sp := rfl
@[simp] theorem latchKeys_stack (k : Keypad) : (latchKeys k s).stack = s.stack := rfl
@[simp] theorem latchKeys_dt (k : Keypad) : (latchKeys k s).dt = s.dt := rfl
@[simp] theorem latchKeys_st (k : Keypad) : (latchKeys k s).st = s.st := rfl
@[simp] theorem latchKeys_mem (k : Keypad) : (latchKeys k s).mem = s.mem := rfl
@[simp] theorem latchKeys_fb (k : Keypad) : (latchKeys k s).fb = s.fb := rfl
@[simp] theorem latchKeys_keys (k : Keypad) : (latchKeys k s).keys = k := rfl
@[simp] theorem latchKeys_await (k : Keypad) : (latchKeys k s).await = s.await := rfl
@[simp] theorem latchKeys_run (k : Keypad) : (latchKeys k s).run = s.run := rfl
@[simp] theorem latchKeys_draws (k : Keypad) : (latchKeys k s).draws = s.draws := rfl
@[simp] theorem latchKeys_host (k : Keypad) : (latchKeys k s).host = s.host := rfl

end Sys2Proof.Machine.State
end

