-- ==== Sys2Proof/Laws/Ops.lean ====
section
/-! SUPPORT. One lemma per shared operation that says what it can do: reading and writing registers, memory through the state, the
range check, the fetch, the call stack, and the two shapes that may take a fault. -/

namespace Sys2Proof.Machine.State

variable (s : State)

/-! ## Registers -/

@[simp] theorem getV_setV_same (x : Nibble) (u : Byte) : (s.setV x u).getV x = u := by
  simp [getV, setV]

theorem getV_setV_other (x z : Nibble) (u : Byte) (h : z ≠ x) : (s.setV x u).getV z = s.getV z := by
  have hne : x.toNat ≠ z.toNat := fun e => h (BitVec.eq_of_toNat_eq e.symm)
  simp [getV, setV, hne]

/-- V[z] after V[x] <- u. -/
theorem getV_setV (x z : Nibble) (u : Byte) : (s.setV x u).getV z = if z = x then u else s.getV z := by
  split
  · next h => subst h; exact getV_setV_same s z u
  · next h => exact getV_setV_other s x z u h

/-- V[z] after VF <- f. -/
theorem getV_setFlag (z : Nibble) (f : Bool) :
    (s.setFlag f).getV z = if z = 0xF then (if f then 1 else 0) else s.getV z := getV_setV s 0xF z _

@[simp] theorem getV_setIndex (w : Word) (z : Nibble) : (s.setIndex w).getV z = s.getV z := rfl
@[simp] theorem getV_setPc (w : Word) (z : Nibble) : (s.setPc w).getV z = s.getV z := rfl
@[simp] theorem getV_advance (k : Nat) (z : Nibble) : (s.advance k).getV z = s.getV z := rfl
@[simp] theorem getV_setDelay (u : Byte) (z : Nibble) : (s.setDelay u).getV z = s.getV z := rfl
@[simp] theorem getV_setSound (u : Byte) (z : Nibble) : (s.setSound u).getV z = s.getV z := rfl
@[simp] theorem getV_setFb (f : Framebuffer) (z : Nibble) : (s.setFb f).getV z = s.getV z := rfl
@[simp] theorem getV_setAwait (a : Await) (z : Nibble) : (s.setAwait a).getV z = s.getV z := rfl
@[simp] theorem getV_drawn (z : Nibble) : s.drawn.getV z = s.getV z := rfl
@[simp] theorem getV_setBytes (a : Nat) (us : List Byte) (z : Nibble) : (s.setBytes a us).getV z = s.getV z := rfl

/-- V[z] after a sequential instruction's destination write. -/
theorem getV_writeReg (x z : Nibble) (u : Byte) : (s.writeReg x u).getV z = if z = x then u else s.getV z := by
  simp [writeReg, getV_setV]

/-- V[z] after a flag-setting instruction: the destination wins over the flag (92_eei_decisions.md D10). -/
theorem getV_writeRegFlag (x z : Nibble) (u : Byte) (f : Bool) :
    (s.writeRegFlag x u f).getV z = if z = x then u else if z = 0xF then (if f then 1 else 0) else s.getV z := by
  simp [writeRegFlag, getV_setV, getV_setFlag]

/-- A sequential destination write changes V and PC alone. -/
theorem writeReg_eq (x : Nibble) (u : Byte) :
    s.writeReg x u = { s with v := (s.setV x u).v, pc := s.pc + 2 } := rfl

/-- A flag-setting instruction changes V and PC alone. -/
theorem writeRegFlag_eq (x : Nibble) (u : Byte) (f : Bool) :
    s.writeRegFlag x u f = { s with v := ((s.setFlag f).setV x u).v, pc := s.pc + 2 } := rfl

/-- A skip changes PC alone, by 4 or by 2 (10_state.md R18). -/
theorem skipIf_eq (c : Bool) : s.skipIf c = { s with pc := s.pc + (if c then 4 else 2) } := by
  cases c <;> rfl

/-- Loading a list of bytes leaves every register outside it alone. -/
theorem loadRegs_other (v : Vector Byte 16) (i : Nat) (us : List Byte) (j : Nat) (hj : j < 16)
    (h : j < i ∨ i + us.length ≤ j) : (loadRegs v i us)[j] = v[j] := by
  induction us generalizing v i with
  | nil => rfl
  | cons u us ih =>
    simp only [List.length_cons] at h
    have hne : i ≠ j := by omega
    rw [loadRegs, ih _ _ (by omega)]
    simp [hne]

/-- After loading a list of bytes from register `i` upward, its k-th byte is in the k-th of them. -/
theorem loadRegs_get (v : Vector Byte 16) (i : Nat) (us : List Byte) (k : Nat) (hk : k < us.length) (h : i + k < 16) :
    (loadRegs v i us)[i + k] = us[k] := by
  induction us generalizing v i k with
  | nil => exact absurd hk (Nat.not_lt_zero k)
  | cons u us ih =>
    cases k with
    | zero =>
      rw [loadRegs, loadRegs_other _ _ _ _ h (Or.inl (by omega))]
      simp
    | succ k =>
      have e : i + (k + 1) = i + 1 + k := by omega
      simp only [e, List.getElem_cons_succ]
      exact ih _ _ _ (by simpa using hk) (by omega)

@[simp] theorem length_regsUpTo (x : Nibble) : (s.regsUpTo x).length = x.toNat + 1 := by
  have := x.isLt
  simp [regsUpTo]
  omega

/-- The k-th of V0..V[x] is V[k]. -/
theorem regsUpTo_get (x z : Nibble) (h : z.toNat < (s.regsUpTo x).length) : (s.regsUpTo x)[z.toNat] = s.getV z := by
  simp [regsUpTo, getV]

/-! ## Memory through the state -/

@[simp] theorem length_bytesAt (a len : Nat) : (s.bytesAt a len).length = len := by
  induction len generalizing a with
  | zero => rfl
  | succ n ih => simp [bytesAt, ih]

/-- The k-th of the bytes from an address upward is the byte at the k-th address. -/
theorem bytesAt_get (a len k : Nat) (h : k < (s.bytesAt a len).length) : (s.bytesAt a len)[k] = s.byteAt (a + k) := by
  induction len generalizing a k with
  | zero => exact absurd h (Nat.not_lt_zero k)
  | succ n ih =>
    cases k with
    | zero => simp [bytesAt]
    | succ k =>
      simp only [bytesAt, List.getElem_cons_succ]
      rw [ih]
      congr 1
      omega

/-- Storing bytes leaves every byte outside them alone. -/
theorem byteAt_setBytes_other (a b : Nat) (us : List Byte) (h : b < a ∨ a + us.length ≤ b) :
    (s.setBytes a us).byteAt b = s.byteAt b := Memory.read_writeList_other _ h

/-- Storing bytes that all exist puts the k-th at the k-th address. -/
theorem byteAt_setBytes_get (hm : Memory.wf s.params.font s.memSize s.mem = true) (a k : Nat) (us : List Byte)
    (hk : k < us.length) (ha : a + us.length ≤ s.memSize) : (s.setBytes a us).byteAt (a + k) = us[k] :=
  Memory.read_writeList_get _ hm hk ha

/-- Storing bytes that all exist keeps memory well-formed. -/
theorem wf_setBytes (hm : Memory.wf s.params.font s.memSize s.mem = true) (a : Nat) (us : List Byte)
    (ha : a + us.length ≤ s.memSize) :
    Memory.wf s.params.font s.memSize (s.setBytes a us).mem = true := Memory.wf_writeList _ hm ha

/-! ## The range check and the fetch -/

/-- The range check passes when every byte exists (20_memory.md R33). -/
theorem overflowAt_none (base len : Nat) (h : base + len ≤ s.memSize ∨ len = 0) : s.overflowAt base len = none := by
  simp only [overflowAt]
  split
  · omega
  · rfl

/-- The range check fails at the lowest address that does not exist (20_memory.md R33). -/
theorem overflowAt_some (base len : Nat) (h : s.memSize < base + len) (hl : 0 < len) :
    s.overflowAt base len = some (max base s.memSize) := by
  simp only [overflowAt]
  split
  · rfl
  · omega

/-- What the range check says of an access, in both cases. -/
theorem overflowAt_cases (base len : Nat) :
    (s.overflowAt base len = none ∧ (base + len ≤ s.memSize ∨ len = 0)) ∨
    (s.overflowAt base len = some (max base s.memSize) ∧ s.memSize < base + len ∧ 0 < len) := by
  by_cases h : base + len ≤ s.memSize ∨ len = 0
  · exact .inl ⟨overflowAt_none s base len h, h⟩
  · exact .inr ⟨overflowAt_some s base len (by omega) (by omega), by omega, by omega⟩

/-- Memory has room for the program region. -/
theorem memSize_bounds : 4095 ≤ s.memSize ∧ s.memSize ≤ 4096 := by
  unfold memSize
  cases s.params.memSize <;> simp [MemSize.toNat]

theorem memRead_ok (a : Nat) (h : a < s.memSize) : s.memRead a = .ok (s.byteAt a) := by
  rw [memRead, overflowAt_none s a 1 (Or.inl (by omega))]

theorem memRead_error (a : Nat) (h : s.memSize ≤ a) : s.memRead a = .error a := by
  rw [memRead, overflowAt_some s a 1 (by omega) Nat.one_pos, Nat.max_eq_left h]

/-- Everything the fetch can do (20_memory.md R40, R41). -/
theorem fetch_cases :
    (s.pc.toNat + 1 < s.memSize ∧
      s.fetch = .ok (wordOfBytes (s.byteAt s.pc.toNat) (s.byteAt (s.pc.toNat + 1)))) ∨
    (s.memSize ≤ s.pc.toNat ∧ s.fetch = .error s.pc.toNat) ∨
    (s.pc.toNat + 1 = s.memSize ∧ s.fetch = .error (s.pc.toNat + 1)) := by
  rcases Nat.lt_trichotomy (s.pc.toNat + 1) s.memSize with h | h | h
  · exact .inl ⟨h, by rw [fetch, memRead_ok s _ (by omega), memRead_ok s _ h]⟩
  · exact .inr (.inr ⟨h, by rw [fetch, memRead_ok s _ (by omega), memRead_error s _ (by omega)]⟩)
  · exact .inr (.inl ⟨by omega, by rw [fetch, memRead_error s _ (by omega)]⟩)

/-! ## The call stack -/

/-- Everything a push can do (10_state.md R20). -/
theorem push_cases (ret : Word) :
    (∃ h : s.sp.val < 16, s.push ret =
      some { s with stack := s.stack.set s.sp.val ret h, sp := ⟨s.sp.val + 1, by omega⟩ }) ∨
    (s.sp = 16 ∧ s.push ret = none) := by
  by_cases h : s.sp.val < 16
  · exact .inl ⟨h, by simp [push, h]⟩
  · exact .inr ⟨Fin.ext (by have := s.sp.isLt; simp; omega), by simp [push, h]⟩

/-- Everything a pop can do (10_state.md R20, R21). -/
theorem pop_cases :
    (∃ h : 0 < s.sp.val, s.pop =
      some (s.stack[s.sp.val - 1]'(by omega), { s with sp := ⟨s.sp.val - 1, by omega⟩ })) ∨
    (s.sp = 0 ∧ s.pop = none) := by
  by_cases h : 0 < s.sp.val
  · exact .inl ⟨h, by simp [pop, h]⟩
  · exact .inr ⟨Fin.ext (by simp; omega), by simp [pop, h]⟩

/-! ## A memory operand -/

/-- Everything an instruction with a memory operand at I can do (20_memory.md R33, 60_exceptions.md R97). -/
theorem withOperandAtI_cases (i : Instr) (len : Nat) (act : State) :
    ((s.index.toNat + len ≤ s.memSize ∨ len = 0) ∧ s.withOperandAtI i len act = act) ∨
    (s.memSize < s.index.toNat + len ∧ 0 < len ∧ s.withOperandAtI i len act =
      s.raiseBy i .memoryOverflow (some (max s.index.toNat s.memSize))) := by
  rcases overflowAt_cases s s.index.toNat len with ⟨e, h⟩ | ⟨e, h, hl⟩
  · exact .inl ⟨h, by simp [withOperandAtI, e]⟩
  · exact .inr ⟨h, hl, by simp [withOperandAtI, e]⟩

end Sys2Proof.Machine.State
end

