-- ==== Sys2Proof/Laws/Sprite.lean ====
section
/-! SUPPORT. What the sprite engine does, said once: which pixels a drawing inverts and when it collides (40_display.md R62). -/

namespace Sys2Proof.Machine

/-- A flipped pixel is inverted, and no other pixel of the surface changes. -/
theorem Framebuffer.pixel_flip (fb : Framebuffer) (r c r' c' : Nat) :
    (fb.flip r c).pixel r' c' = (fb.pixel r' c' ^^ (decide (r = r' ∧ c = c') && decide (r < 32 ∧ c < 64))) := by
  unfold Framebuffer.flip
  split
  · next h =>
    by_cases h' : r' < 32 ∧ c' < 64
    · by_cases hr : r = r'
      · subst hr
        by_cases hc : c = c'
        · subst hc
          simp [Framebuffer.pixel, h]
        · simp [Framebuffer.pixel, h, h', hc]
      · simp [Framebuffer.pixel, h, h', hr]
    · have : ¬ (r = r' ∧ c = c') := by omega
      simp [Framebuffer.pixel, h', this]
  · next h => simp [h]

/-- The clear surface has no pixel at 1. -/
@[simp] theorem Framebuffer.pixel_clear (r c : Nat) : Framebuffer.clear.pixel r c = false := by
  unfold Framebuffer.pixel Framebuffer.clear
  split <;> simp

/-- Two surfaces with the same pixels are equal. -/
theorem Framebuffer.ext_pixel {fb fb' : Framebuffer} (h : ∀ r c, r < 32 → c < 64 → fb.pixel r c = fb'.pixel r c) : fb = fb' := by
  apply Vector.ext
  intro r hr
  apply Vector.ext
  intro c hc
  have := h r c hr hc
  simpa [Framebuffer.pixel, hr, hc] using this

/-- The row a byte makes: the bit of the byte at column `c` when the byte starts at column `x0`, over its first `k` columns. -/
def rowBit (u : Byte) (x0 k c : Nat) : Bool :=
  decide (x0 ≤ c) && decide (c < x0 + k) && u.getLsbD (7 - (c - x0))

@[simp] theorem rowBit_zero (u : Byte) (x0 c : Nat) : rowBit u x0 0 c = false := by
  have h : ¬ (x0 ≤ c ∧ c < x0 + 0) := by omega
  by_cases h1 : x0 ≤ c
  · simp [rowBit, show ¬ c < x0 by omega]
  · simp [rowBit, h1]

/-- One bit drawn. -/
theorem Drawing.pixel_bit (d : Drawing) (b : Bool) (r c r' c' : Nat) (h : r' < 32 ∧ c' < 64) :
    (d.bit b r c).fb.pixel r' c' = (d.fb.pixel r' c' ^^ (b && decide (r = r' ∧ c = c'))) := by
  unfold Drawing.bit
  split
  · next hb =>
    rw [Framebuffer.pixel_flip]
    simp [hb]
  · next hb =>
    cases b with
    | false => simp
    | true =>
      have : ¬ (r = r' ∧ c = c') := by intro e; apply hb; simp; omega
      simp [this]

theorem Drawing.coll_bit (d : Drawing) (b : Bool) (r c : Nat) :
    (d.bit b r c).coll = (d.coll || (b && decide (r < 32 ∧ c < 64) && d.fb.pixel r c)) := by
  unfold Drawing.bit
  split
  · next hb => simp [hb]
  · next hb =>
    cases b with
    | false => simp
    | true =>
      have : ¬ (r < 32 ∧ c < 64) := by simpa using hb
      simp [this]

/-- The pixels after the first `k` columns of one sprite byte. -/
theorem Drawing.pixel_columns (d : Drawing) (u : Byte) (r x0 k r' c' : Nat) (h : r' < 32 ∧ c' < 64) :
    (d.columns u r x0 k).fb.pixel r' c' = (d.fb.pixel r' c' ^^ (decide (r = r') && rowBit u x0 k c')) := by
  induction k with
  | zero => simp [Drawing.columns, rowBit_zero]
  | succ k ih =>
    rw [Drawing.columns, Drawing.pixel_bit _ _ _ _ _ _ h, ih]
    by_cases hr : r = r'
    · by_cases hc : x0 + k = c'
      · subst hc
        simp [hr, rowBit]
      · have e : rowBit u x0 (k + 1) c' = rowBit u x0 k c' := by
          unfold rowBit
          by_cases h1 : c' < x0 + k
          · simp [h1, show c' < x0 + (k + 1) by omega]
          · by_cases h2 : x0 ≤ c'
            · simp [h1, show ¬ c' < x0 + (k + 1) by omega]
            · simp [h2]
        simp [hr, hc, e]
    · simp [hr]

/-- The collision flag after the first `k` columns of one sprite byte: a pixel of them was 1 before. -/
theorem Drawing.coll_columns (d : Drawing) (u : Byte) (r x0 k : Nat) :
    (d.columns u r x0 k).coll = true ↔
      d.coll = true ∨ (r < 32 ∧ ∃ c, c < 64 ∧ rowBit u x0 k c = true ∧ d.fb.pixel r c = true) := by
  induction k with
  | zero =>
    simp [Drawing.columns]
  | succ k ih =>
    have step : ∀ c, rowBit u x0 (k + 1) c = true ↔
        rowBit u x0 k c = true ∨ (c = x0 + k ∧ u.getLsbD (7 - k) = true) := by
      intro c
      by_cases hc : c = x0 + k
      · subst hc
        simp [rowBit]
      · simp only [rowBit, Bool.and_eq_true, decide_eq_true_eq, hc, false_and, or_false]
        constructor
        · rintro ⟨⟨h1, h2⟩, h3⟩; exact ⟨⟨h1, by omega⟩, h3⟩
        · rintro ⟨⟨h1, h2⟩, h3⟩; exact ⟨⟨h1, by omega⟩, h3⟩
    rw [Drawing.columns, Drawing.coll_bit]
    simp only [Bool.or_eq_true, Bool.and_eq_true, decide_eq_true_eq, ih]
    constructor
    · rintro ((h | ⟨hr, c, hc, hb, hp⟩) | ⟨⟨hb, hr, hc⟩, hp⟩)
      · exact .inl h
      · exact .inr ⟨hr, c, hc, (step c).2 (.inl hb), hp⟩
      · refine .inr ⟨hr, x0 + k, hc, (step _).2 (.inr ⟨rfl, hb⟩), ?_⟩
        rw [Drawing.pixel_columns d u r x0 k r (x0 + k) ⟨hr, hc⟩] at hp
        simpa [rowBit] using hp
    · rintro (h | ⟨hr, c, hc, hb, hp⟩)
      · exact .inl (.inl h)
      · rcases (step c).1 hb with hb' | ⟨rfl, hb'⟩
        · exact .inl (.inr ⟨hr, c, hc, hb', hp⟩)
        · refine .inr ⟨⟨hb', hr, hc⟩, ?_⟩
          rw [Drawing.pixel_columns d u r x0 k r (x0 + k) ⟨hr, hc⟩]
          simpa [rowBit] using hp

/-- The sprite has a 1 at (r, c) when its top left corner is at (row, col). -/
def spriteBit (row col : Nat) (us : List Byte) (r c : Nat) : Bool :=
  decide (row ≤ r) && (match us[r - row]? with | some u => rowBit u col 8 c | none => false)

theorem spriteBit_cons (row col : Nat) (u : Byte) (us : List Byte) (r c : Nat) :
    spriteBit row col (u :: us) r c =
      ((decide (row = r) && rowBit u col 8 c) ^^ spriteBit (row + 1) col us r c) := by
  unfold spriteBit
  rcases Nat.lt_trichotomy row r with h | h | h
  · have e : r - row = (r - (row + 1)) + 1 := by omega
    have h1 : row ≤ r := by omega
    have h2 : row ≠ r := by omega
    have h3 : row + 1 ≤ r := by omega
    simp only [e, List.getElem?_cons_succ]
    simp [h1, h2, h3]
  · subst h
    simp
  · have h1 : ¬ row ≤ r := by omega
    have h2 : row ≠ r := by omega
    have h3 : ¬ row + 1 ≤ r := by omega
    simp [h1, h2, h3]

/-- The pixels after drawing the rows of a sprite. -/
theorem Drawing.pixel_rows (us : List Byte) (d : Drawing) (row col r c : Nat) (h : r < 32 ∧ c < 64) :
    (Drawing.rows col row us d).fb.pixel r c = (d.fb.pixel r c ^^ spriteBit row col us r c) := by
  induction us generalizing d row with
  | nil => simp [Drawing.rows, spriteBit]
  | cons u us ih =>
    rw [Drawing.rows, ih, Drawing.pixel_columns _ _ _ _ _ _ _ h, spriteBit_cons, Bool.xor_assoc]

/-- The collision flag after drawing the rows of a sprite. -/
theorem Drawing.coll_rows (us : List Byte) (d : Drawing) (row col : Nat) :
    (Drawing.rows col row us d).coll = true ↔
      d.coll = true ∨ ∃ r c, r < 32 ∧ c < 64 ∧ spriteBit row col us r c = true ∧ d.fb.pixel r c = true := by
  induction us generalizing d row with
  | nil => simp [Drawing.rows, spriteBit]
  | cons u us ih =>
    have below : ∀ c, spriteBit (row + 1) col us row c = false := by
      intro c; simp [spriteBit]
    rw [Drawing.rows, ih, Drawing.coll_columns]
    constructor
    · rintro ((h | ⟨hr, c, hc, hb, hp⟩) | ⟨r, c, hr, hc, hb, hp⟩)
      · exact .inl h
      · exact .inr ⟨row, c, hr, hc, by simp [spriteBit_cons, hb, below], hp⟩
      · have hne : row ≠ r := by rintro rfl; simp [below] at hb
        refine .inr ⟨r, c, hr, hc, by simp [spriteBit_cons, hb, hne], ?_⟩
        rw [Drawing.pixel_columns _ _ _ _ _ _ _ ⟨hr, hc⟩] at hp
        simpa [hne] using hp
    · rintro (h | ⟨r, c, hr, hc, hb, hp⟩)
      · exact .inl (.inl h)
      · by_cases hne : row = r
        · subst hne
          refine .inl (.inr ⟨hr, c, hc, ?_, hp⟩)
          simpa [spriteBit_cons, below] using hb
        · refine .inr ⟨r, c, hr, hc, by simpa [spriteBit_cons, hne] using hb, ?_⟩
          rw [Drawing.pixel_columns _ _ _ _ _ _ _ ⟨hr, hc⟩]
          simpa [hne] using hp

/-- Everything drawing a sprite does: each pixel of the surface is inverted where the sprite has a 1, and it collides exactly when a
pixel was 1 there (R62). -/
theorem drawSprite_spec (fb : Framebuffer) (row col : Nat) (us : List Byte) :
    (∀ r c, r < 32 → c < 64 → (drawSprite fb row col us).fb.pixel r c = (fb.pixel r c ^^ spriteBit row col us r c)) ∧
    ((drawSprite fb row col us).coll = true ↔
      ∃ r c, r < 32 ∧ c < 64 ∧ spriteBit row col us r c = true ∧ fb.pixel r c = true) := by
  constructor
  · intro r c hr hc
    exact Drawing.pixel_rows us _ row col r c ⟨hr, hc⟩
  · rw [drawSprite, Drawing.coll_rows]
    simp

end Sys2Proof.Machine
end

