-- ==== Sys2Proof/Laws/Exec.lean ====
section
/-! SUPPORT. Everything the instructions with more than one outcome can do, one inversion lemma each: their cases are on the state
alone, and each case says the whole answer. The other instructions answer one next state, which their definition states. -/

namespace Sys2Proof.Machine

open State

variable (s : State)

/-- Everything 00EE can do (41_control_flow.md R63). -/
theorem execRet_cases :
    (∃ h : 0 < s.sp.val, execRet s =
      .next { s with sp := ⟨s.sp.val - 1, by omega⟩, pc := s.stack[s.sp.val - 1]'(by omega) }) ∨
    (s.sp = 0 ∧ execRet s = .next (s.raiseBy .ret .stackUnderflow none)) := by
  rcases pop_cases s with ⟨h, e⟩ | ⟨h, e⟩
  · exact .inl ⟨h, by rw [execRet, e]; rfl⟩
  · exact .inr ⟨h, by rw [execRet, e]⟩

/-- Everything 2NNN can do (41_control_flow.md R65). -/
theorem execCall_cases (nnn : Addr12) :
    (∃ h : s.sp.val < 16, execCall nnn s =
      .next { s with stack := s.stack.set s.sp.val (s.pc + 2) h, sp := ⟨s.sp.val + 1, by omega⟩, pc := zextAddr nnn }) ∨
    (s.sp = 16 ∧ execCall nnn s = .next (s.raiseBy (.call nnn) .stackOverflow none)) := by
  rcases push_cases s (s.pc + 2) with ⟨h, e⟩ | ⟨h, e⟩
  · exact .inl ⟨h, by rw [execCall, e]; rfl⟩
  · exact .inr ⟨h, by rw [execCall, e]⟩

/-- Everything DXYN can do (40_display.md R62). -/
theorem execDrw_cases (x y n : Nibble) :
    ((s.index.toNat + n.toNat ≤ s.memSize ∨ n.toNat = 0) ∧ execDrw x y n s = .next (drawAtI x y n s)) ∨
    (s.memSize < s.index.toNat + n.toNat ∧ 0 < n.toNat ∧
      execDrw x y n s = .next (s.raiseBy (.drw x y n) .memoryOverflow (some (max s.index.toNat s.memSize)))) := by
  rcases withOperandAtI_cases s (.drw x y n) n.toNat (drawAtI x y n s) with ⟨h, e⟩ | ⟨h, h', e⟩
  · exact .inl ⟨h, by rw [execDrw, e]⟩
  · exact .inr ⟨h, h', by rw [execDrw, e]⟩

/-- Everything FX33 can do (43_index_memory.md R85). -/
theorem execLdBVx_cases (x : Nibble) :
    (s.index.toNat + 3 ≤ s.memSize ∧
      execLdBVx x s = .next ((s.setBytes s.index.toNat (bcdDigits (s.getV x))).advance 2)) ∨
    (s.memSize < s.index.toNat + 3 ∧
      execLdBVx x s = .next (s.raiseBy (.ldBVx x) .memoryOverflow (some (max s.index.toNat s.memSize)))) := by
  rcases withOperandAtI_cases s (.ldBVx x) 3 ((s.setBytes s.index.toNat (bcdDigits (s.getV x))).advance 2)
    with ⟨h, e⟩ | ⟨h, _, e⟩
  · exact .inl ⟨by omega, by rw [execLdBVx, e]⟩
  · exact .inr ⟨h, by rw [execLdBVx, e]⟩

/-- Everything FX55 can do (43_index_memory.md R86). -/
theorem execLdMemVx_cases (x : Nibble) :
    (s.index.toNat + (x.toNat + 1) ≤ s.memSize ∧
      execLdMemVx x s = .next ((indexPast x (s.setBytes s.index.toNat (s.regsUpTo x))).advance 2)) ∨
    (s.memSize < s.index.toNat + (x.toNat + 1) ∧
      execLdMemVx x s = .next (s.raiseBy (.ldMemVx x) .memoryOverflow (some (max s.index.toNat s.memSize)))) := by
  rcases withOperandAtI_cases s (.ldMemVx x) (x.toNat + 1)
    ((indexPast x (s.setBytes s.index.toNat (s.regsUpTo x))).advance 2) with ⟨h, e⟩ | ⟨h, _, e⟩
  · exact .inl ⟨by omega, by rw [execLdMemVx, e]⟩
  · exact .inr ⟨h, by rw [execLdMemVx, e]⟩

/-- Everything FX65 can do (43_index_memory.md R87). -/
theorem execLdVxMem_cases (x : Nibble) :
    (s.index.toNat + (x.toNat + 1) ≤ s.memSize ∧
      execLdVxMem x s = .next
        ((indexPast x { s with v := loadRegs s.v 0 (s.bytesAt s.index.toNat (x.toNat + 1)) }).advance 2)) ∨
    (s.memSize < s.index.toNat + (x.toNat + 1) ∧
      execLdVxMem x s = .next (s.raiseBy (.ldVxMem x) .memoryOverflow (some (max s.index.toNat s.memSize)))) := by
  rcases withOperandAtI_cases s (.ldVxMem x) (x.toNat + 1)
    ((indexPast x { s with v := loadRegs s.v 0 (s.bytesAt s.index.toNat (x.toNat + 1)) }).advance 2)
    with ⟨h, e⟩ | ⟨h, _, e⟩
  · exact .inl ⟨by omega, by rw [execLdVxMem, e]⟩
  · exact .inr ⟨h, by rw [execLdVxMem, e]⟩

/-- Everything the input mux can answer for a key index (45_keypad.md R92, R93). -/
theorem keyAt_cases (k : Byte) :
    (∃ h : k.toNat < 16, s.keyAt k = some (s.keys[k.toNat]'h)) ∨
    (16 ≤ k.toNat ∧ s.params.keyIndexPolicy = .notPressed ∧ s.keyAt k = some false) ∨
    (16 ≤ k.toNat ∧ s.params.keyIndexPolicy = .fault ∧ s.keyAt k = none) := by
  by_cases h : k.toNat < 16
  · exact .inl ⟨h, by simp [keyAt, h]⟩
  · cases hp : s.params.keyIndexPolicy
    · exact .inr (.inr ⟨by omega, rfl, by simp [keyAt, h, hp]⟩)
    · exact .inr (.inl ⟨by omega, rfl, by simp [keyAt, h, hp]⟩)

/-- No key is pressed exactly when lowest() is none (45_keypad.md R94). -/
theorem lowestKey_none : s.lowestKey = none ↔ ∀ k : Fin 16, s.keys[k] = false := by
  have all : ∀ k : Fin 16, k ∈ keyIndices := by decide
  simp only [lowestKey, List.find?_eq_none]
  constructor
  · intro h k
    simpa using h k (all k)
  · intro h k _
    simpa using h k

/-- lowest() is the least pressed key (45_keypad.md R94). -/
theorem lowestKey_some (k : Fin 16) :
    s.lowestKey = some k ↔ s.keys[k] = true ∧ ∀ j : Fin 16, j < k → s.keys[j] = false := by
  have all : ∀ k : Fin 16, k ∈ keyIndices := by decide
  have sorted : keyIndices.Pairwise (· < ·) := by decide
  simp only [lowestKey, List.find?_eq_some_iff_append]
  constructor
  · rintro ⟨hk, as, bs, e, has⟩
    refine ⟨hk, fun j hj => ?_⟩
    have hj' : j ∈ as := by
      have := all j
      rw [e] at this
      rcases List.mem_append.1 this with h | h
      · exact h
      · have hp := (List.pairwise_append.1 (e ▸ sorted)).2.1
        rcases List.mem_cons.1 h with rfl | h
        · exact absurd hj (lt_irrefl _)
        · exact absurd ((List.pairwise_cons.1 hp).1 j h) (not_lt_of_gt hj)
    simpa using has j hj'
  · rintro ⟨hk, hlow⟩
    obtain ⟨as, bs, e⟩ := List.append_of_mem (all k)
    refine ⟨hk, as, bs, e, fun j hj => ?_⟩
    have hjk : j < k := (List.pairwise_append.1 (e ▸ sorted)).2.2 j hj k (by simp)
    simp [hlow j hjk]

/-- Everything FX0A can do (45_keypad.md R94). -/
theorem execLdVxK_cases (x : Nibble) :
    (s.await = .idle ∧ s.lowestKey = none ∧ execLdVxK x s = .next s) ∨
    (∃ k, s.await = .idle ∧ s.lowestKey = some k ∧ s.params.awaitKeyMode = .level ∧
      execLdVxK x s = .next (s.resolveKey x k)) ∨
    (∃ k, s.await = .idle ∧ s.lowestKey = some k ∧ s.params.awaitKeyMode = .release ∧
      execLdVxK x s = .next (s.setAwait (.keyObserved k))) ∨
    (∃ k, s.await = .keyObserved k ∧ s.keys[k] = true ∧ execLdVxK x s = .next s) ∨
    (∃ k, s.await = .keyObserved k ∧ s.keys[k] = false ∧ execLdVxK x s = .next (s.resolveKey x k)) := by
  cases ha : s.await with
  | idle =>
    cases hl : s.lowestKey with
    | none => exact .inl ⟨rfl, rfl, by simp [execLdVxK, ha, hl]⟩
    | some k =>
      cases hm : s.params.awaitKeyMode
      · exact .inr (.inr (.inl ⟨k, rfl, rfl, rfl, by simp [execLdVxK, ha, hl, hm]⟩))
      · exact .inr (.inl ⟨k, rfl, rfl, rfl, by simp [execLdVxK, ha, hl, hm]⟩)
  | keyObserved k =>
    cases hk : s.keys[k]
    · refine .inr (.inr (.inr (.inr ⟨k, rfl, hk, ?_⟩)))
      simp only [execLdVxK, ha]
      exact if_neg (by simp [hk])
    · refine .inr (.inr (.inr (.inl ⟨k, rfl, hk, ?_⟩)))
      simp only [execLdVxK, ha]
      exact if_pos hk

end Sys2Proof.Machine
end

