-- ==== Sys2Proof/Laws/HostOps.lean ====
section
/-! SUPPORT. What each of the host's operations does, and the cases of a single Step. -/

namespace Sys2Proof.Machine

namespace State

theorem countDown_toNat (u : Byte) : (countDown u).toNat = u.toNat - 1 := by
  unfold countDown
  split
  · rw [BitVec.toNat_sub]; simp; omega
  · omega

theorem tick_running {s : State} (h : s.run = .running) :
    s.tick = { s with dt := countDown s.dt, st := countDown s.st } := by simp [tick, h]

theorem tick_halted {s : State} {r : FaultRecord} (h : s.run = .halted r) : s.tick = s := by simp [tick, h]

/-! What the end of a frame leaves as it was. -/

@[simp] theorem endFrame_params (k : Keypad) (s : State) : (s.endFrame k).params = s.params := by
  unfold endFrame latchKeys tick; split <;> rfl
@[simp] theorem endFrame_v (k : Keypad) (s : State) : (s.endFrame k).v = s.v := by
  unfold endFrame latchKeys tick; split <;> rfl
@[simp] theorem endFrame_index (k : Keypad) (s : State) : (s.endFrame k).index = s.index := by
  unfold endFrame latchKeys tick; split <;> rfl
@[simp] theorem endFrame_pc (k : Keypad) (s : State) : (s.endFrame k).pc = s.pc := by
  unfold endFrame latchKeys tick; split <;> rfl
@[simp] theorem endFrame_sp (k : Keypad) (s : State) : (s.endFrame k).sp = s.sp := by
  unfold endFrame latchKeys tick; split <;> rfl
@[simp] theorem endFrame_stack (k : Keypad) (s : State) : (s.endFrame k).stack = s.stack := by
  unfold endFrame latchKeys tick; split <;> rfl
@[simp] theorem endFrame_mem (k : Keypad) (s : State) : (s.endFrame k).mem = s.mem := by
  unfold endFrame latchKeys tick; split <;> rfl
@[simp] theorem endFrame_fb (k : Keypad) (s : State) : (s.endFrame k).fb = s.fb := by
  unfold endFrame latchKeys tick; split <;> rfl
@[simp] theorem endFrame_await (k : Keypad) (s : State) : (s.endFrame k).await = s.await := by
  unfold endFrame latchKeys tick; split <;> rfl
@[simp] theorem endFrame_run (k : Keypad) (s : State) : (s.endFrame k).run = s.run := by
  unfold endFrame latchKeys tick; split <;> rfl
@[simp] theorem endFrame_draws (k : Keypad) (s : State) : (s.endFrame k).draws = s.draws := by
  unfold endFrame latchKeys tick; split <;> rfl
@[simp] theorem endFrame_host (k : Keypad) (s : State) : (s.endFrame k).host = s.host := by
  unfold endFrame latchKeys tick; split <;> rfl

theorem memAfterLoad_fits {font : Font} {size : MemSize} {rom : List Byte} (h : rom.length ≤ size.toNat - Config.progBase) :
    memAfterLoad font size rom = Memory.writeList font Config.progBase rom [] := by
  unfold memAfterLoad romFits
  rw [decide_eq_true h]
  rfl

theorem memAfterLoad_too_long {font : Font} {size : MemSize} {rom : List Byte}
    (h : size.toNat - Config.progBase < rom.length) : memAfterLoad font size rom = [] := by
  unfold memAfterLoad romFits
  rw [decide_eq_false (Nat.not_le.mpr h)]
  rfl

/-- Initialize leaves memory in its canonical form. -/
theorem initRom_wf (rom : List Byte) (s : State) :
    Memory.wf s.params.font s.memSize (memAfterLoad s.params.font s.params.memSize rom) = true := by
  have hsz := memSize_bounds s
  by_cases h : rom.length ≤ s.params.memSize.toNat - Config.progBase
  · rw [memAfterLoad_fits h]
    refine Memory.wf_writeList _ rfl ?_
    simp only [Config.progBase, memSize] at *
    omega
  · rw [memAfterLoad_too_long (Nat.lt_of_not_le h)]
    rfl

end State

/-- Everything a Step can be: nothing, the fault of a fetch, the fault of a decode, or an instruction's own effect. -/
theorem stepInstr_cases (s : State) :
    (∃ r, s.run = .halted r ∧ stepInstr s = .next s) ∨
    (s.run = .running ∧ ∃ bad, s.fetch = .error bad ∧ stepInstr s = .next (s.raise .memoryOverflow none (some bad))) ∨
    (s.run = .running ∧ ∃ w, s.fetch = .ok w ∧ decodeWord w = none ∧
      stepInstr s = .next (s.raise .invalidInstruction (some w) none)) ∨
    (s.run = .running ∧ ∃ w i, s.fetch = .ok w ∧ decodeWord w = some i ∧ stepInstr s = exec i s) := by
  unfold stepInstr
  split
  · rename_i r h
    exact .inl ⟨r, h, rfl⟩
  · rename_i h
    split
    · rename_i bad hf
      exact .inr (.inl ⟨h, bad, hf, rfl⟩)
    · rename_i w hf
      split
      · rename_i hd
        exact .inr (.inr (.inl ⟨h, w, hf, hd, rfl⟩))
      · rename_i i hd
        exact .inr (.inr (.inr ⟨h, w, i, hf, hd, rfl⟩))

end Sys2Proof.Machine
end

