-- ==== Sys2Proof/Laws/PerInstr.lean ====
section
/-! SUPPORT. Statements made for every instruction, one lemma per constructor. EncodesInTable: the word of an instruction, at every
value of its operands, is one its row of spec/opcode_table.json selects (30_encoding.md R51, R54). -/

namespace Sys2Proof.Laws.EncodesInTable

/-- The instruction's word is a valid encoding. -/
def Statement (i : Instr) : Prop := wellFormedWord (encode i) = true

theorem cls : Statement .cls :=
  wellFormedWord_of_row ⟨0x00E0, 0xFFFF⟩ (by decide) (by decide)

theorem ret : Statement .ret :=
  wellFormedWord_of_row ⟨0x00EE, 0xFFFF⟩ (by decide) (by decide)

theorem jp (nnn : Addr12) : Statement (.jp nnn) :=
  wellFormedWord_formatA 0x1 nnn (by decide)

theorem call (nnn : Addr12) : Statement (.call nnn) :=
  wellFormedWord_formatA 0x2 nnn (by decide)

theorem seImm (x : Nibble) (nn : Byte) : Statement (.seImm x nn) :=
  wellFormedWord_formatXB 0x3 x nn (by decide)

theorem sneImm (x : Nibble) (nn : Byte) : Statement (.sneImm x nn) :=
  wellFormedWord_formatXB 0x4 x nn (by decide)

theorem seReg (x y : Nibble) : Statement (.seReg x y) :=
  wellFormedWord_formatXY 0x5 x y 0x0 (by decide)

theorem ldImm (x : Nibble) (nn : Byte) : Statement (.ldImm x nn) :=
  wellFormedWord_formatXB 0x6 x nn (by decide)

theorem addImm (x : Nibble) (nn : Byte) : Statement (.addImm x nn) :=
  wellFormedWord_formatXB 0x7 x nn (by decide)

theorem ldReg (x y : Nibble) : Statement (.ldReg x y) :=
  wellFormedWord_formatXY 0x8 x y 0x0 (by decide)

theorem or (x y : Nibble) : Statement (.or x y) :=
  wellFormedWord_formatXY 0x8 x y 0x1 (by decide)

theorem and (x y : Nibble) : Statement (.and x y) :=
  wellFormedWord_formatXY 0x8 x y 0x2 (by decide)

theorem xor (x y : Nibble) : Statement (.xor x y) :=
  wellFormedWord_formatXY 0x8 x y 0x3 (by decide)

theorem addReg (x y : Nibble) : Statement (.addReg x y) :=
  wellFormedWord_formatXY 0x8 x y 0x4 (by decide)

theorem sub (x y : Nibble) : Statement (.sub x y) :=
  wellFormedWord_formatXY 0x8 x y 0x5 (by decide)

theorem shr (x y : Nibble) : Statement (.shr x y) :=
  wellFormedWord_formatXY 0x8 x y 0x6 (by decide)

theorem subn (x y : Nibble) : Statement (.subn x y) :=
  wellFormedWord_formatXY 0x8 x y 0x7 (by decide)

theorem shl (x y : Nibble) : Statement (.shl x y) :=
  wellFormedWord_formatXY 0x8 x y 0xE (by decide)

theorem sneReg (x y : Nibble) : Statement (.sneReg x y) :=
  wellFormedWord_formatXY 0x9 x y 0x0 (by decide)

theorem ldI (nnn : Addr12) : Statement (.ldI nnn) :=
  wellFormedWord_formatA 0xA nnn (by decide)

theorem jpV0 (nnn : Addr12) : Statement (.jpV0 nnn) :=
  wellFormedWord_formatA 0xB nnn (by decide)

theorem rnd (x : Nibble) (nn : Byte) : Statement (.rnd x nn) :=
  wellFormedWord_formatXB 0xC x nn (by decide)

theorem drw (x y n : Nibble) : Statement (.drw x y n) :=
  wellFormedWord_formatXYN 0xD x y n (by decide)

theorem skp (x : Nibble) : Statement (.skp x) :=
  wellFormedWord_formatX 0xE x 0x9E (by decide)

theorem sknp (x : Nibble) : Statement (.sknp x) :=
  wellFormedWord_formatX 0xE x 0xA1 (by decide)

theorem ldVxDt (x : Nibble) : Statement (.ldVxDt x) :=
  wellFormedWord_formatX 0xF x 0x07 (by decide)

theorem ldVxK (x : Nibble) : Statement (.ldVxK x) :=
  wellFormedWord_formatX 0xF x 0x0A (by decide)

theorem ldDtVx (x : Nibble) : Statement (.ldDtVx x) :=
  wellFormedWord_formatX 0xF x 0x15 (by decide)

theorem ldStVx (x : Nibble) : Statement (.ldStVx x) :=
  wellFormedWord_formatX 0xF x 0x18 (by decide)

theorem addIVx (x : Nibble) : Statement (.addIVx x) :=
  wellFormedWord_formatX 0xF x 0x1E (by decide)

theorem ldFVx (x : Nibble) : Statement (.ldFVx x) :=
  wellFormedWord_formatX 0xF x 0x29 (by decide)

theorem ldBVx (x : Nibble) : Statement (.ldBVx x) :=
  wellFormedWord_formatX 0xF x 0x33 (by decide)

theorem ldMemVx (x : Nibble) : Statement (.ldMemVx x) :=
  wellFormedWord_formatX 0xF x 0x55 (by decide)

theorem ldVxMem (x : Nibble) : Statement (.ldVxMem x) :=
  wellFormedWord_formatX 0xF x 0x65 (by decide)

end Sys2Proof.Laws.EncodesInTable
end

