-- ==== Sys2Proof/Tests/Slice0.lean ====
section
/-! SUPPORT. The model's own tests: ill-formed inputs refused, decoding words written out from 30_encoding.md R52, one-step vectors of
95_test_vectors.md (each test's docstring names the vector), and a witness for the hypotheses of every statement. -/

namespace Sys2Proof.Tests

open Sys2Proof.Machine

/-! ## Helpers -/

/-- The outcome is a next state with a property. -/
def after (o : Result) (p : State → Bool) : Bool :=
  match o with
  | .next t => p t
  | _ => false

/-- One step from a state with a word placed where it fetches. -/
def run1 (s : State) (w : Nat) (p : State → Bool) : Bool := after (step (s.withFetchWord 16 w)) p

/-- A state with some registers set. -/
def withV (s : State) (l : List (Nibble × Byte)) : State := l.foldl (fun s p => s.setV p.1 p.2) s

/-- The state after reset with some registers set. -/
def regs (l : List (Nibble × Byte)) : State := withV State.reset l

/-- The state after reset with I and some bytes of memory at I set. -/
def dataAt (i : Word) (us : List Byte) : State := { State.reset.setBytes i.toNat us with index := i }

/-- The state after reset with some keys pressed. -/
def pressed (l : List (Fin 16)) : State := { State.reset with keys := Vector.ofFn fun k => l.contains k }

/-- The state after reset with other parameters. -/
def withParams (p : Params) : State := { State.reset with params := p }

/-- Memory one byte smaller (R4). -/
def small : State := withParams { Config.params with memSize := .bytes4095 }

/-- A register's value and VF after a step. -/
def vAndFlag (x : Nibble) (u f : Byte) (t : State) : Bool := t.getV x == u && t.getV 0xF == f && t.pc == 0x202

/-- Halted with this record. -/
def halts (code : Fault) (pc : Word) (word info : Option Word) (t : State) : Bool :=
  decide (t.run = .halted ⟨code, pc, word, info⟩) && t.pc == pc

/-- A record for states that a fault has already ended. -/
def someRecord : FaultRecord := ⟨.stackUnderflow, 0x200, some 0x00EE, none⟩

/-- The state after reset, halted. -/
def halted : State := { State.reset with run := .halted someRecord }

/-! ## Ill-formed words and ROMs are refused (R54, R117) -/

theorem test_wellFormed_refuses_op_0 : wellFormedWord 0x0123 = false ∧ wellFormedWord 0x00E1 = false := by decide
theorem test_wellFormed_refuses_op_5_n : wellFormedWord 0x5121 = false := by decide
theorem test_wellFormed_refuses_op_8_n : wellFormedWord 0x8128 = false ∧ wellFormedWord 0x812F = false := by decide
theorem test_wellFormed_refuses_op_9_n : wellFormedWord 0x912F = false := by decide
theorem test_wellFormed_refuses_op_E_nn : wellFormedWord 0xE19F = false := by decide
theorem test_wellFormed_refuses_op_F_nn : wellFormedWord 0xF175 = false ∧ wellFormedWord 0xF000 = false := by decide
/-- RST3, RST4, RST5. -/
theorem test_romFits_bounds :
    romFits .bytes4096 (List.replicate 3584 0) = true ∧ romFits .bytes4096 (List.replicate 3585 0) = false ∧
    romFits .bytes4095 (List.replicate 3584 0) = false := by
  simp only [romFits, List.length_replicate]
  decide
/-- No word selects two rows of the opcode table: two rows always differ in a bit that both fix. -/
theorem test_table_rows_do_not_overlap :
    OpcodeRow.table.Pairwise fun a b => (a.bits ^^^ b.bits) &&& a.mask &&& b.mask ≠ 0 := by decide
theorem test_table_has_34_rows : OpcodeRow.table.length = 34 := by decide

/-! ## Decoding words written out, bit by bit, from R52 -/

theorem test_decode_display :
    decodeWord 0b0000_0000_1110_0000 = some .cls ∧ decodeWord 0b1101_0001_0010_0011 = some (.drw 1 2 3) := by decide
theorem test_decode_control :
    decodeWord 0b0000_0000_1110_1110 = some .ret ∧ decodeWord 0b0001_0010_0011_0100 = some (.jp 0x234) ∧
    decodeWord 0b0010_0010_0001_0000 = some (.call 0x210) ∧ decodeWord 0b1011_0001_0010_0011 = some (.jpV0 0x123) := by decide
theorem test_decode_skips :
    decodeWord 0b0011_0001_0000_0000 = some (.seImm 1 0) ∧ decodeWord 0b0100_0010_0000_0111 = some (.sneImm 2 7) ∧
    decodeWord 0b0101_0011_0100_0000 = some (.seReg 3 4) ∧ decodeWord 0b1001_0011_0100_0000 = some (.sneReg 3 4) := by decide
theorem test_decode_immediate :
    decodeWord 0b0110_1111_1001_1001 = some (.ldImm 0xF 0x99) ∧ decodeWord 0b0111_0001_1111_1111 = some (.addImm 1 0xFF) := by
  decide
theorem test_decode_logic :
    decodeWord 0b1000_0001_0010_0000 = some (.ldReg 1 2) ∧ decodeWord 0b1000_0001_0010_0001 = some (.or 1 2) ∧
    decodeWord 0b1000_0001_0010_0010 = some (.and 1 2) ∧ decodeWord 0b1000_0001_0010_0011 = some (.xor 1 2) := by decide
theorem test_decode_arithmetic :
    decodeWord 0b1000_0001_0010_0100 = some (.addReg 1 2) ∧ decodeWord 0b1000_0001_0010_0101 = some (.sub 1 2) ∧
    decodeWord 0b1000_0001_0010_0110 = some (.shr 1 2) ∧ decodeWord 0b1000_0001_0010_0111 = some (.subn 1 2) ∧
    decodeWord 0b1000_0001_0010_1110 = some (.shl 1 2) := by decide
theorem test_decode_index :
    decodeWord 0b1010_0010_0000_0011 = some (.ldI 0x203) ∧ decodeWord 0b1111_0011_0001_1110 = some (.addIVx 3) ∧
    decodeWord 0b1111_0000_0010_1001 = some (.ldFVx 0) ∧ decodeWord 0b1111_1010_0011_0011 = some (.ldBVx 0xA) ∧
    decodeWord 0b1111_0001_0101_0101 = some (.ldMemVx 1) ∧ decodeWord 0b1111_1111_0110_0101 = some (.ldVxMem 0xF) := by decide
theorem test_decode_timers_random :
    decodeWord 0b1100_0001_0000_1111 = some (.rnd 1 0x0F) ∧ decodeWord 0b1111_0101_0000_0111 = some (.ldVxDt 5) ∧
    decodeWord 0b1111_0010_0001_0101 = some (.ldDtVx 2) ∧ decodeWord 0b1111_0011_0001_1000 = some (.ldStVx 3) := by decide
theorem test_decode_keypad :
    decodeWord 0b1110_0001_1001_1110 = some (.skp 1) ∧ decodeWord 0b1110_0001_1010_0001 = some (.sknp 1) ∧
    decodeWord 0b1111_0011_0000_1010 = some (.ldVxK 3) := by decide
/-- The Invalid rows of 95_test_vectors.md section 2. -/
theorem test_decode_invalid :
    [0x0000, 0x0123, 0x00E1, 0x00FE, 0x5121, 0x8128, 0x812F, 0x912F, 0xE19F, 0xF000, 0xF175].all
      (fun w => decodeWord w == none) = true := by decide
theorem test_decode_bytes_high_first :
    decodeBytes [0x60, 0x05, 0xA2] = .ok (.ldImm 0 5, [0xA2]) ∧ decodeBytes [0x60] = .error .truncated ∧
    decodeBytes [0x00, 0x00] = .error (.invalid 0x0000) := by decide
theorem test_decodeTableWord : decodeTableWord 16 0xD125 = some (.drw 1 2 5) ∧ decodeTableWord 16 0x00E1 = none := by decide

/-! ## Display -/

/-- A surface with some pixels set. -/
def picture (l : List (Nat × Nat)) : Framebuffer := l.foldl (fun fb p => fb.flip p.1 p.2) Framebuffer.clear

/-- The pixels of a row from a column to the right. -/
def pixels (t : State) (r c len : Nat) : List Bool := (List.range len).map fun k => t.fb.pixel r (c + k)

/-- DSP1. -/
theorem test_cls :
    run1 { regs [(0xF, 0x42)] with fb := picture [(5, 5), (31, 63)] } 0x00E0
      (fun t => !t.fb.pixel 5 5 && !t.fb.pixel 31 63 && t.getV 0xF == 0x42 && t.pc == 0x202) = true := by decide
/-- DSP3 and DSP2: start taken modulo the surface; columns clipped at its edge, not wrapped. -/
theorem test_drw_start_and_clip :
    run1 (withV (dataAt 0x300 [0xFF]) [(0, 67), (1, 33)]) 0xD011
      (fun t => pixels t 1 2 10 == [false, true, true, true, true, true, true, true, true, false] && vAndFlag 0xF 0 0 t) = true ∧
    run1 (withV (dataAt 0x300 [0xFF]) [(0, 60)]) 0xD011
      (fun t => pixels t 0 59 5 == [false, true, true, true, true] && !t.fb.pixel 0 0 && !t.fb.pixel 1 0) = true := by
  decide
/-- DSP6 and DSP8: one collision sets VF; a sprite past the end of memory faults. -/
theorem test_drw_collision_and_fault :
    run1 { dataAt 0x300 [0x81] with fb := picture [(0, 0)] } 0xD011
      (fun t => pixels t 0 0 8 == [false, false, false, false, false, false, false, true] && vAndFlag 0xF 1 1 t) = true ∧
    run1 (dataAt 0xFFE []) 0xD013 (halts .memoryOverflow 0x200 (some 0xD013) (some 0x1000)) = true := by
  decide

/-! ## Control transfer -/

/-- CF7. -/
theorem test_ret :
    run1 { State.reset with sp := 1, stack := State.reset.stack.set 0 0x206 } 0x00EE
      (fun t => t.pc == 0x206 && t.sp == 0 && t.stack[0] == 0x206) = true := by decide
/-- CF8. -/
theorem test_ret_underflow : run1 State.reset 0x00EE (halts .stackUnderflow 0x200 (some 0x00EE) none) = true := by decide
/-- CF1, CF3. -/
theorem test_jp : run1 State.reset 0x1301 (fun t => t.pc == 0x301) = true := by decide
/-- CF6. -/
theorem test_call :
    run1 { State.reset with pc := 0xFFE, sp := 3 } 0x2300
      (fun t => t.pc == 0x300 && t.sp == 4 && t.stack[3] == 0x1000 && t.stack[4] == 0) = true := by decide
/-- CF5. -/
theorem test_call_overflow :
    run1 { State.reset with sp := 16 } 0x2210 (fun t => halts .stackOverflow 0x200 (some 0x2210) none t && t.sp == 16) = true := by
  decide
/-- CF10. -/
theorem test_jpV0 : run1 (regs [(0, 0xFF)]) 0xBFFF (fun t => t.pc == 0x10FE) = true := by decide
/-- CF10, CF19, FP4: the fetch at or past the end of memory. -/
theorem test_fetch_faults :
    after (step { State.reset with pc := 0x10FE }) (halts .memoryOverflow 0x10FE none (some 0x10FE)) = true ∧
    after (step { State.reset with pc := 0x1000 }) (halts .memoryOverflow 0x1000 none (some 0x1000)) = true ∧
    after (step { State.reset with pc := 0xFFF }) (halts .memoryOverflow 0xFFF none (some 0x1000)) = true := by decide
/-- S9, AR36: an invalid word. -/
theorem test_invalid_word :
    after (step State.reset) (halts .invalidInstruction 0x200 (some 0x0000) none) = true ∧
    run1 State.reset 0x8128 (halts .invalidInstruction 0x200 (some 0x8128) none) = true := by decide
/-- CF12, CF13, CF20. -/
theorem test_seImm :
    run1 (regs [(1, 1)]) 0x3100 (fun t => t.pc == 0x202) = true ∧
    run1 (regs [(0xF, 1)]) 0x3F01 (fun t => t.pc == 0x204) = true := by decide
/-- CF14. -/
theorem test_sneImm :
    run1 (regs [(2, 7)]) 0x4207 (fun t => t.pc == 0x202) = true ∧
    run1 (regs [(2, 7)]) 0x4208 (fun t => t.pc == 0x204) = true := by decide
/-- CF15, CF16. -/
theorem test_seReg :
    run1 (regs [(3, 9), (4, 9)]) 0x5340 (fun t => t.pc == 0x204) = true ∧
    run1 (regs [(3, 1), (4, 2)]) 0x5340 (fun t => t.pc == 0x202) = true := by decide
/-- CF16, CF17. -/
theorem test_sneReg :
    run1 (regs [(3, 1), (4, 2)]) 0x9340 (fun t => t.pc == 0x204) = true ∧
    run1 (regs [(3, 1)]) 0x9330 (fun t => t.pc == 0x202) = true := by decide

/-! ## Arithmetic and logic -/

/-- AR2. -/
theorem test_ldImm : run1 State.reset 0x6F99 (vAndFlag 0xF 0x99 0x99) = true := by decide
/-- AR4. -/
theorem test_addImm : run1 (regs [(1, 0xFF), (0xF, 0x55)]) 0x7101 (vAndFlag 1 0x00 0x55) = true := by decide
/-- AR6. -/
theorem test_ldReg : run1 (regs [(2, 0x33)]) 0x8120 (vAndFlag 1 0x33 0) = true := by decide
/-- AR7. -/
theorem test_or : run1 (regs [(1, 0x0F), (2, 0xF0), (0xF, 7)]) 0x8121 (vAndFlag 1 0xFF 7) = true := by decide
/-- AR8. -/
theorem test_and : run1 (regs [(1, 0x3C), (2, 0x0F), (0xF, 7)]) 0x8122 (vAndFlag 1 0x0C 7) = true := by decide
/-- AR9. -/
theorem test_xor : run1 (regs [(1, 0xFF), (2, 0x0F), (0xF, 7)]) 0x8123 (vAndFlag 1 0xF0 7) = true := by decide
/-- AR12, AR13. -/
theorem test_addReg :
    run1 (regs [(1, 0x7F), (2, 0x80), (0xF, 1)]) 0x8124 (vAndFlag 1 0xFF 0) = true ∧
    run1 (regs [(1, 0x80), (2, 0x80)]) 0x8124 (vAndFlag 1 0x00 1) = true := by decide
/-- AR17, AR18: VF as destination and as operand. -/
theorem test_addReg_vf :
    run1 (regs [(1, 0x20), (0xF, 0xF0)]) 0x8F14 (vAndFlag 0xF 0x10 0x10) = true ∧
    run1 (regs [(1, 2), (0xF, 1)]) 0x81F4 (vAndFlag 1 3 0) = true := by decide
/-- AR19, AR20. -/
theorem test_sub :
    run1 (regs [(1, 0x20), (2, 0x10)]) 0x8125 (vAndFlag 1 0x10 1) = true ∧
    run1 (regs [(1, 0x10), (2, 0x20), (0xF, 1)]) 0x8125 (vAndFlag 1 0xF0 0) = true := by decide
/-- AR21: the comparison is strict. -/
theorem test_sub_equal : run1 (regs [(1, 0x10), (2, 0x10), (0xF, 1)]) 0x8125 (vAndFlag 1 0 0) = true := by decide
/-- AR26: y is ignored. -/
theorem test_shr : run1 (regs [(1, 5), (0xF, 0x80)]) 0x81F6 (vAndFlag 1 2 1) = true := by decide
/-- AR28. -/
theorem test_shr_vf : run1 (regs [(0xF, 6)]) 0x8F06 (vAndFlag 0xF 3 3) = true := by decide
/-- AR29, AR30. -/
theorem test_subn :
    run1 (regs [(1, 0x10), (2, 0x30)]) 0x8127 (vAndFlag 1 0x20 1) = true ∧
    run1 (regs [(1, 0x30), (2, 0x10), (0xF, 1)]) 0x8127 (vAndFlag 1 0xE0 0) = true := by decide
/-- AR31: the comparison is strict. -/
theorem test_subn_equal : run1 (regs [(1, 0x10), (2, 0x10), (0xF, 1)]) 0x8127 (vAndFlag 1 0 0) = true := by decide
/-- AR32, AR33. -/
theorem test_shl :
    run1 (regs [(1, 0x81)]) 0x810E (vAndFlag 1 2 1) = true ∧
    run1 (regs [(1, 0x7F), (0xF, 1)]) 0x810E (vAndFlag 1 0xFE 0) = true := by decide
/-- AR35. -/
theorem test_shl_vf : run1 (regs [(0xF, 0x81)]) 0x8F0E (vAndFlag 0xF 2 2) = true := by decide

/-! ## Index register and memory -/

/-- MEM1, MEM2. -/
theorem test_ldI : run1 State.reset 0xAFFF (fun t => t.index == 0xFFF && t.pc == 0x202) = true := by decide
/-- MEM3, MEM4. -/
theorem test_addIVx :
    run1 { regs [(3, 5)] with index := 0xFFE } 0xF31E (fun t => t.index == 0x1003 && t.getV 0xF == 1) = true ∧
    run1 { regs [(3, 5)] with index := 0xFFA } 0xF31E (fun t => t.index == 0xFFF && t.getV 0xF == 0) = true := by decide
/-- MEM6, MEM7: the 16-bit wrap; VF as the addend. -/
theorem test_addIVx_wrap_and_vf :
    run1 { regs [(0, 1)] with index := 0xFFFF } 0xF01E (fun t => t.index == 0 && t.getV 0xF == 1) = true ∧
    run1 { regs [(0xF, 0x10)] with index := 0x100 } 0xFF1E (fun t => t.index == 0x110 && t.getV 0xF == 0) = true := by decide
/-- MEM9, MEM11. -/
theorem test_ldFVx :
    run1 (regs [(0, 0xF)]) 0xF029 (fun t => t.index == 0x04B) = true ∧
    run1 (regs [(0, 0xFF)]) 0xF029 (fun t => t.index == 0x4FB) = true := by decide
/-- MEM15. -/
theorem test_ldBVx :
    run1 { regs [(0, 255)] with index := 0xFFD } 0xF033
      (fun t => t.byteAt 0xFFD == 2 && t.byteAt 0xFFE == 5 && t.byteAt 0xFFF == 5 && t.index == 0xFFD) = true := by decide
/-- MEM16. -/
theorem test_ldBVx_fault :
    run1 { regs [(0, 255)] with index := 0xFFE } 0xF033
      (fun t => halts .memoryOverflow 0x200 (some 0xF033) (some 0x1000) t && t.byteAt 0xFFE == 0) = true := by decide
/-- MEM17. -/
theorem test_ldMemVx :
    run1 { regs [(0, 1), (1, 2), (2, 3)] with index := 0x300 } 0xF155
      (fun t => t.byteAt 0x300 == 1 && t.byteAt 0x301 == 2 && t.byteAt 0x302 == 0 && t.index == 0x302) = true := by decide
/-- MEM21. -/
theorem test_ldMemVx_fault :
    run1 { regs [(0, 1)] with index := 0xFF1 } 0xFF55
      (fun t => halts .memoryOverflow 0x200 (some 0xFF55) (some 0x1000) t && t.byteAt 0xFF1 == 0 && t.index == 0xFF1) = true := by
  decide
/-- MEM23. -/
theorem test_ldVxMem :
    run1 (dataAt 0x300 [1, 2, 3, 4]) 0xF265
      (fun t => t.getV 0 == 1 && t.getV 1 == 2 && t.getV 2 == 3 && t.getV 3 == 0 && t.index == 0x303) = true := by decide
/-- MEM25: MEM_SIZE = 4095. -/
theorem test_ldVxMem_fault :
    run1 { small with index := 0xFFF } 0xF065 (halts .memoryOverflow 0x200 (some 0xF065) (some 0xFFF)) = true := by decide

/-! ## Random and timers -/

/-- TIM2: a mask of 0 gives 0 whatever the draw. -/
theorem test_rnd_mask_zero :
    run1 (regs [(1, 7)]) 0xC100 (fun t => t.draws == 1 && t.pc == 0x202) = true ∧
    ∀ r : Byte, r &&& 0x00 = 0x00 := ⟨by decide, fun _ => by simp⟩
/-- TIM4. -/
theorem test_ldVxDt : run1 { State.reset with dt := 3 } 0xF507 (vAndFlag 5 3 0) = true := by decide
/-- TIM5. -/
theorem test_ldDtVx : run1 (regs [(2, 60)]) 0xF215 (fun t => t.dt == 60 && t.tick.dt == 59) = true := by decide
/-- TIM7 under SOUND_TIMER_SRC = n_field and = x_field. -/
theorem test_ldStVx :
    run1 (withV (withParams { Config.params with soundTimerSrc := some .nField }) [(3, 10), (8, 20)]) 0xF318
      (fun t => t.st == 20) = true ∧
    run1 (withV (withParams { Config.params with soundTimerSrc := some .xField }) [(3, 10), (8, 20)]) 0xF318
      (fun t => t.st == 10) = true := by decide
/-- TIM9, TIM10, S10. -/
theorem test_tick :
    ({ State.reset with st := 2 } : State).tick.st = 1 ∧ ({ State.reset with st := 2 } : State).tick.dt = 0 ∧
    ({ halted with dt := 5 } : State).tick.dt = 5 := by decide

/-! ## Keypad -/

/-- KEY1, KEY2, KEY5. -/
theorem test_skp :
    run1 (withV (pressed [7]) [(1, 7)]) 0xE19E (fun t => t.pc == 0x204) = true ∧
    run1 (withV (pressed [6, 8]) [(1, 7)]) 0xE19E (fun t => t.pc == 0x202) = true ∧
    run1 (regs [(1, 0x10)]) 0xE19E (halts .keyIndexOutOfRange 0x200 (some 0xE19E) (some 0x10)) = true := by decide
/-- KEY3, KEY4, KEY6. -/
theorem test_sknp :
    run1 (withV (pressed []) [(1, 7)]) 0xE1A1 (fun t => t.pc == 0x204) = true ∧
    run1 (withV (pressed [7]) [(1, 7)]) 0xE1A1 (fun t => t.pc == 0x202) = true ∧
    run1 (withV (withParams { Config.params with keyIndexPolicy := .notPressed }) [(1, 0x10)]) 0xE1A1
      (fun t => t.pc == 0x204) = true := by decide
/-- KEY7, KEY8. -/
theorem test_ldVxK_observes :
    run1 (pressed []) 0xF30A (fun t => decide (t.await = .idle) && t.pc == 0x200) = true ∧
    run1 (pressed [3, 9]) 0xF30A (fun t => decide (t.await = .keyObserved 3) && t.pc == 0x200 && t.getV 3 == 0) = true := by decide
/-- KEY10, KEY12. -/
theorem test_ldVxK_resolves :
    run1 { pressed [9] with await := .keyObserved 3 } 0xF30A
      (fun t => t.getV 3 == 3 && decide (t.await = .idle) && t.pc == 0x202) = true ∧
    run1 { pressed [2] with params := { Config.params with awaitKeyMode := .level } } 0xF50A
      (fun t => t.getV 5 == 2 && decide (t.await = .idle) && t.pc == 0x202) = true := by decide

/-! ## Memory, reset and the host's operations -/

/-- The font checks of 95_test_vectors.md section 9, glyphs 0, 5 and F. -/
theorem test_reset_font :
    State.reset.bytesAt 0x000 5 = [0xF0, 0x90, 0x90, 0x90, 0xF0] ∧ State.reset.bytesAt 0x019 5 = [0xF0, 0x80, 0xF0, 0x10, 0xF0] ∧
    State.reset.bytesAt 0x04B 6 = [0xF0, 0x80, 0xF0, 0x80, 0x80, 0x00] := by decide
/-- A font byte written over and written back leaves memory as it was, as data. -/
theorem test_memory_is_canonical :
    ((State.reset.setByte 0 0x11).setByte 0x300 7).mem = [(0, 0x11), (0x300, 7)] ∧
    (((State.reset.setByte 0 0x11).setByte 0x300 7).setByte 0 0xF0).mem = [(0x300, 7)] := by decide
/-- RST1: a pending Initialize, after a run that faulted (RST6). -/
theorem test_initRom :
    after (step { halted with host := [.initRom [0x60, 0x05]], index := 9 })
      (fun t => decide (t.run = .running) && t.pc == 0x200 && t.index == 0 && t.bytesAt 0x200 3 == [0x60, 0x05, 0x00]) = true := by
  decide
/-- RST4. -/
theorem test_initRom_too_long :
    State.runAfterLoad .bytes4096 (List.replicate 3585 0) =
      .halted ⟨.memoryOverflow, 0x200, none, some 0x1000⟩ := by
  simp only [State.runAfterLoad, romFits, List.length_replicate]
  decide
/-- R106: the Tick and the LatchKeys that end a frame. -/
theorem test_frame_end :
    after (step { State.reset with dt := 3, host := [.frame 0 (pressed [7]).keys] })
      (fun t => t.dt == 2 && t.keys == (pressed [7]).keys && t.host == []) = true := by decide
/-- R47, R125: FX33 of 255 at the word that follows it leaves 02 05 there, and one byte further on 05 05. -/
theorem test_ldBVx_is_fetched_next :
    run1 { regs [(0, 255)] with index := 0x202 } 0xF033 (fun t => decide (t.fetch.toOption = some 0x0205)) = true ∧
    run1 { regs [(0, 255)] with index := 0x201 } 0xF033 (fun t => decide (t.fetch.toOption = some 0x0505)) = true := by decide
/-- R98: a halted machine's step does nothing. -/
theorem test_halted_step : step halted = .next halted := rfl

/-! ## Witnesses: for each statement with hypotheses, states and operands that meet them, one for each clause at its bounds -/

/-- The state after reset with a word placed where it fetches. -/
def placed (w : Nat) : State := State.reset.withFetchWord 16 w

/-- The instruction gives a next state that runs on. -/
def completes (i : Instr) (s : State) : Prop := s.run = .running ∧ ∃ t, exec i s = .next t ∧ t.run = .running

/-- The step of a running machine takes a fault. -/
def faultsWith (s : State) (f : Fault) : Prop :=
  s.run = .running ∧ ∃ t r, stepInstr s = .next t ∧ t.run = .halted r ∧ r.code = f

/-- A step gives a next state. -/
def steps (s : State) : Prop := ∃ t, step s = .next t

theorem witness_EncodeOfDecodeIsTheWord : decodeWord 0x81F6 = some (.shr 1 0xF) := by decide
theorem witness_StepRunsTheDecodedInstruction_single :
    let s : State := { State.reset with pc := 0xFFE }.withFetchWord 16 0x6005
    s.run = .running ∧ s.pc.toNat + 1 < s.memSize ∧ s.pc = 0xFFE ∧
    decodeWord (wordOfBytes (s.byteAt s.pc.toNat) (s.byteAt (s.pc.toNat + 1))) = some (.ldImm 0 5) ∧ s.host = [] := by decide
theorem witness_StepRunsTheDecodedInstruction_in_frame :
    let s : State := { placed 0x6005 with host := [.frame 1 State.reset.keys] }
    s.run = .running ∧ s.pc.toNat + 1 < s.memSize ∧
    decodeWord (wordOfBytes (s.byteAt s.pc.toNat) (s.byteAt (s.pc.toNat + 1))) = some (.ldImm 0 5) ∧
    s.host = .frame (0 + 1) State.reset.keys :: [] := by decide
theorem witness_StepTakesItsFaultsInOrder_halted : halted.host = [] ∧ halted.run = .halted someRecord := by decide
theorem witness_StepTakesItsFaultsInOrder_pc_past :
    let s : State := { State.reset with pc := 0x1000 }
    s.host = [] ∧ s.run = .running ∧ s.memSize ≤ s.pc.toNat := by decide
theorem witness_StepTakesItsFaultsInOrder_pc_last :
    let s : State := { State.reset with pc := 0xFFF }
    s.host = [] ∧ s.run = .running ∧ s.pc.toNat + 1 = s.memSize := by decide
theorem witness_StepTakesItsFaultsInOrder_invalid :
    let s : State := { State.reset with pc := 0xFFE }
    s.host = [] ∧ s.run = .running ∧ s.pc.toNat + 1 < s.memSize ∧
    decodeWord (wordOfBytes (s.byteAt s.pc.toNat) (s.byteAt (s.pc.toNat + 1))) = none := by decide

/-- For FaultingStepChangesOnlyRun and FaultsAreTakenOnlyForTheirCause: each of the five faults, and both causes of the second. -/
theorem witness_Faults_invalidInstruction : faultsWith State.reset .invalidInstruction := ⟨rfl, _, _, rfl, rfl, rfl⟩
theorem witness_Faults_memoryOverflow_fetch : faultsWith { State.reset with pc := 0xFFF } .memoryOverflow :=
  ⟨rfl, _, _, rfl, rfl, rfl⟩
theorem witness_Faults_memoryOverflow_operand : faultsWith { placed 0xF033 with index := 0xFFE } .memoryOverflow :=
  ⟨rfl, _, _, rfl, rfl, rfl⟩
theorem witness_Faults_stackOverflow : faultsWith { placed 0x2210 with sp := 16 } .stackOverflow := ⟨rfl, _, _, rfl, rfl, rfl⟩
theorem witness_Faults_stackUnderflow : faultsWith (placed 0x00EE) .stackUnderflow := ⟨rfl, _, _, rfl, rfl, rfl⟩
theorem witness_Faults_keyIndexOutOfRange : faultsWith (withV (placed 0xE19E) [(1, 0x10)]) .keyIndexOutOfRange :=
  ⟨rfl, _, _, rfl, rfl, rfl⟩

theorem witness_EachInstructionMovesPcByItsKind_running :
    completes (.jp 0x234) State.reset ∧ completes (.call 0x210) State.reset ∧ completes (.jpV0 0xFFF) (regs [(0, 0xFF)]) ∧
    completes .ret { State.reset with sp := 1 } ∧ completes (.seImm 0 0) State.reset ∧ completes (.ldVxK 3) (pressed []) ∧
    completes .cls State.reset :=
  ⟨⟨rfl, _, rfl, rfl⟩, ⟨rfl, _, rfl, rfl⟩, ⟨rfl, _, rfl, rfl⟩, ⟨rfl, _, rfl, rfl⟩, ⟨rfl, _, rfl, rfl⟩, ⟨rfl, _, rfl, rfl⟩,
    ⟨rfl, _, rfl, rfl⟩⟩
theorem witness_EachInstructionMovesPcByItsKind_fault :
    State.reset.run = .running ∧ ∃ t, exec .ret State.reset = .next t ∧ t.run ≠ .running := ⟨rfl, _, rfl, by decide⟩
theorem witness_OnlyFlagWritersAndDestinationsChangeV :
    completes (.addReg 1 2) State.reset ∧ isDestination 3 (.addReg 1 2) = false ∧
    completes (.or 1 2) State.reset ∧ isDestination 0xF (.or 1 2) = false ∧ writesFlag (.or 1 2) = false ∧
    isDestination 2 (.ldVxMem 1) = false := ⟨⟨rfl, _, rfl, rfl⟩, by decide, ⟨rfl, _, rfl, rfl⟩, by decide⟩
theorem witness_OnlyTheListedInstructionsWriteEachRegister :
    completes (.jp 0) State.reset ∧ writesIndex (.jp 0) = false ∧ writesSp (.jp 0) = false ∧ (∀ nnn, Instr.jp 0 ≠ .call nnn) ∧
    (∀ x, Instr.jp 0 ≠ .ldDtVx x) ∧ (∀ x, Instr.jp 0 ≠ .ldStVx x) ∧ writesFramebuffer (.jp 0) = false ∧
    writesMemory (.jp 0) = false ∧ (∀ x, Instr.jp 0 ≠ .ldVxK x) ∧ canFault (.jp 0) = false ∧
    (∀ x nn, Instr.jp 0 ≠ .rnd x nn) := by
  refine ⟨⟨rfl, _, rfl, rfl⟩, ?_⟩
  simp [writesIndex, writesSp, writesFramebuffer, writesMemory, canFault]
theorem witness_KeysAreReadOnlyByKeypadInstructions : readsKeys .cls = false := by decide
/-- I from two bytes before the following word (0x202) to its low byte (0x203). -/
theorem witness_StoredBytesAreFetchedNext :
    writesMemory (.ldBVx 0) = true ∧ writesMemory (.ldMemVx 1) = true ∧ ({ State.reset with index := 0x200 } : State).memOk ∧
    (0x203 : Word).toNat + operandBytes (.ldMemVx 1) ≤ State.reset.memSize ∧
    (0x202 : Word).toNat + operandBytes (.ldBVx 0) ≤ State.reset.memSize ∧
    State.reset.pc.toNat + 3 < State.reset.memSize := by decide
/-- The last word and the last bytes of memory. -/
theorem witness_StoredBytesAreFetchedNext_bound :
    let s : State := { State.reset with pc := 0xFFC, index := 0xFFD }
    s.memOk ∧ s.index.toNat + operandBytes (.ldBVx 0) ≤ s.memSize ∧ s.pc.toNat + 3 < s.memSize := by decide

/-- For StepKeepsMemoryCanonical, StepKeepsPcInBounds and StepKeepsTheParameters: a storing step, an Initialize and a frame's end. -/
theorem witness_StepKeeps :
    ({ placed 0xF055 with index := 0xFFF } : State).memOk ∧ ({ placed 0xF055 with index := 0xFFF } : State).pcOk ∧
    steps { placed 0xF055 with index := 0xFFF } ∧
    steps { State.reset with host := [.initRom [0x60, 0x05]] } ∧
    steps { State.reset with host := [.frame 0 State.reset.keys] } := ⟨by decide, by decide, ⟨_, rfl⟩, ⟨_, rfl⟩, ⟨_, rfl⟩⟩
/-- For StepKeepsPcInBounds: the largest PC and a full stack of the largest return address. -/
theorem witness_StepKeepsPcInBounds_bound :
    let s : State := { State.reset with pc := 0x10FE, sp := 16, stack := Vector.replicate 16 0x1000 }
    s.pcOk ∧ steps s := ⟨by decide, ⟨_, rfl⟩⟩
theorem witness_StepKeepsAwaitAtItsInstruction :
    let s : State := { withV (pressed [3]) [] with await := .keyObserved 3 }
    (s.withFetchWord 16 0xF30A).await = .keyObserved 3 ∧ (s.withFetchWord 16 0xF30A).awaitOk ∧
    steps (s.withFetchWord 16 0xF30A) := ⟨by decide, by decide, ⟨_, rfl⟩⟩
theorem witness_KeysChangeOnlyAtAFrameBoundary :
    steps (pressed [3]) ∧ (pressed [3]).host = [] ∧ steps { pressed [3] with host := [.frame (0 + 1) State.reset.keys] } :=
  ⟨⟨_, rfl⟩, rfl, ⟨_, rfl⟩⟩

/-- Both bounds of R117 under both sizes of memory. -/
theorem witness_InitializeResetsAndLoads :
    (List.replicate 3584 (0x12 : Byte)).length ≤ State.reset.memSize - 0x200 ∧
    State.reset.memSize - 0x200 < (List.replicate 3585 (0x12 : Byte)).length ∧
    (List.replicate 3583 (0x12 : Byte)).length ≤ small.memSize - 0x200 ∧
    small.memSize - 0x200 < (List.replicate 3584 (0x12 : Byte)).length := by
  simp only [List.length_replicate]
  decide
theorem witness_TickLowersEachTimerToZero :
    ({ State.reset with dt := 0, st := 255 } : State).run = .running ∧ halted.run = .halted someRecord := by decide
theorem witness_TimersAfterManyTicks : ({ State.reset with dt := 3 } : State).run = .running := by decide
theorem witness_HaltedMachineWaitsForInitialize :
    halted.run = .halted someRecord ∧
    after (step { halted with host := [.initRom [0x12, 0x00]] }) (fun t => decide (t.run = .running)) = true := by decide
/-- A place at PC, and one where PC cannot be fetched at. -/
theorem witness_PlacedWordRunsNext :
    State.reset.memOk ∧ ({ halted with pc := 0xFFF } : State).memOk ∧ decodeWord 0x6005 = some (.ldImm 0 5) ∧
    placeAt State.reset = 0x200 ∧ placeAt { halted with pc := 0xFFF } = 0x200 ∧
    placeAt { State.reset with pc := 0xFFE } = 0xFFE := by decide

theorem witness_DrwXorsTheClippedSprite_in_memory :
    (0xFFE : Word).toNat + (2 : Nibble).toNat - 1 < State.reset.memSize ∧ (0 : Nibble) = 0 := by decide
theorem witness_DrwXorsTheClippedSprite_past_memory :
    (3 : Nibble) ≠ 0 ∧ State.reset.memSize ≤ (0xFFE : Word).toNat + (3 : Nibble).toNat - 1 ∧
    small.memSize ≤ (0xFFE : Word).toNat + (2 : Nibble).toNat - 1 := by decide
theorem witness_DrwXorsTheClippedSprite_collides :
    State.collides { dataAt 0x300 [0x81] with fb := picture [(0, 7)] } 0 1 1 := ⟨0, 7, by decide⟩
theorem witness_DrwXorsTheClippedSprite_no_collision (x y n : Nibble) : ¬ State.reset.collides x y n := by
  rintro ⟨r, c, hr, hc, -, h⟩
  simp [Framebuffer.pixel, State.reset, hr, hc] at h
theorem witness_DrawingTwiceRestoresThePicture :
    let s : State := dataAt 0xFFF [0x80]
    (0 : Nibble) ≠ 0xF ∧ (1 : Nibble) ≠ 0xF ∧ s.index.toNat + (1 : Nibble).toNat ≤ s.memSize ∧
    (s.spriteAt 0 1 1 0 0 = true ∧ s.fb.pixel 0 0 = false) := by decide
/-- A sprite whose pixels are all 1 already. -/
theorem witness_DrawingTwiceRestoresThePicture_all_set :
    let s : State := { dataAt 0xFFF [0x80] with fb := Vector.replicate 32 (Vector.replicate 64 true) }
    s.index.toNat + (1 : Nibble).toNat ≤ s.memSize ∧
    ∀ r c, r < 32 → c < 64 → s.spriteAt 0 1 1 r c = true → s.fb.pixel r c = true := by
  refine ⟨by decide, fun r c hr hc _ => ?_⟩
  simp [Framebuffer.pixel, hr, hc]

theorem witness_RetPopsTheReturnAddress :
    ({ State.reset with sp := 1 } : State).sp.val = (0 : Fin 16).val + 1 ∧
    ({ State.reset with sp := 16 } : State).sp.val = (15 : Fin 16).val + 1 ∧ State.reset.sp = 0 := by decide
theorem witness_CallPushesTheNextAddress :
    State.reset.sp = (0 : Fin 16).castSucc ∧ ({ State.reset with sp := 15 } : State).sp = (15 : Fin 16).castSucc ∧
    ({ State.reset with sp := 16 } : State).sp = 16 := by decide
theorem witness_ReturnResumesAfterTheCall :
    ({ State.reset with sp := 15 } : State).sp ≠ 16 ∧
    ∃ t u : State, exec (.call 0x300) { State.reset with sp := 15 } = .next t ∧ u.sp = t.sp ∧ u.stack = t.stack :=
  ⟨by decide, _, _, rfl, rfl, rfl⟩
theorem witness_RegisterSkipsFollowTheirCondition :
    (regs [(1, 7)]).getV 1 = 7 ∧ (regs [(1, 7)]).getV 1 ≠ 8 ∧ (regs [(1, 7)]).getV 1 = (regs [(1, 7)]).getV 1 ∧
    (regs [(1, 7)]).getV 1 ≠ (regs [(1, 7)]).getV 2 ∧ (1 : Nibble) ≠ 0 ∧ (0xF : Nibble) ≠ 0 := by decide

/-- For the five flag-setting register instructions: the flag's condition met and not met at its bound, with a destination other than
VF: sums of 256 and 255, the strict comparison, the low and the high bit. -/
theorem witness_setsRegAndFlag :
    (1 : Nibble) ≠ 0xF ∧
    255 < ((regs [(1, 0x80), (2, 0x80)]).getV 1).toNat + ((regs [(1, 0x80), (2, 0x80)]).getV 2).toNat ∧
    ¬ 255 < ((regs [(1, 0x7F), (2, 0x80)]).getV 1).toNat + ((regs [(1, 0x7F), (2, 0x80)]).getV 2).toNat ∧
    ((regs [(1, 1), (2, 0)]).getV 1).toNat > ((regs [(1, 1), (2, 0)]).getV 2).toNat ∧
    ¬ ((regs [(1, 1), (2, 1)]).getV 1).toNat > ((regs [(1, 1), (2, 1)]).getV 2).toNat ∧
    ((regs [(1, 5)]).getV 1).toNat % 2 = 1 ∧ ¬ ((regs [(1, 4)]).getV 1).toNat % 2 = 1 ∧
    ((regs [(1, 0x80)]).getV 1).toNat / 128 = 1 ∧ ¬ ((regs [(1, 0x7F)]).getV 1).toNat / 128 = 1 := by decide
theorem witness_AddIVxAddsAndFlagsPast0xFFF :
    0xFFF < ({ regs [(3, 5)] with index := 0xFFB } : State).index.toNat + ((regs [(3, 5)]).getV 3).toNat ∧
    ({ regs [(3, 5)] with index := 0xFFA } : State).index.toNat + ((regs [(3, 5)]).getV 3).toNat ≤ 0xFFF := by decide
theorem witness_LdBVxStoresTheDecimalDigits :
    ({ State.reset with index := 0xFFD } : State).index.toNat + 2 < State.reset.memSize ∧
    ({ State.reset with index := 0xFFD } : State).memOk ∧
    State.reset.memSize ≤ ({ State.reset with index := 0xFFE } : State).index.toNat + 2 := by decide
/-- For LdMemVxStoresTheRegisters and LdVxMemLoadsTheRegisters: the last 16 bytes of memory, one past them, and the largest I. -/
theorem witness_LdMemVx_LdVxMem :
    ({ State.reset with index := 0xFF0 } : State).index.toNat + (0xF : Nibble).toNat < State.reset.memSize ∧
    ({ State.reset with index := 0xFF0 } : State).memOk ∧
    State.reset.memSize ≤ ({ State.reset with index := 0xFF1 } : State).index.toNat + (0xF : Nibble).toNat ∧
    State.reset.memSize ≤ ({ State.reset with index := 0xFFFF } : State).index.toNat + (0 : Nibble).toNat ∧
    (1 : Nibble).toNat < (2 : Nibble).toNat := by decide
theorem witness_LdStVxSetsTheSoundTimer :
    soundSource { Config.params with soundTimerSrc := some .nField } = .nField ∧
    soundSource { Config.params with soundTimerSrc := some .xField } = .xField := by decide
theorem witness_KeySkipsConsultTheLatch :
    ((regs [(1, 15)]).getV 1).toNat = (15 : Fin 16).val ∧ 16 ≤ ((regs [(1, 16)]).getV 1).toNat ∧
    (regs [(1, 16)]).params.keyIndexPolicy = .fault ∧
    (withParams { Config.params with keyIndexPolicy := .notPressed }).params.keyIndexPolicy = .notPressed ∧
    (pressed [15]).keys[15] = true ∧ (pressed [14]).keys[15] = false := by decide
theorem witness_AwaitKeyStateMachine_idle :
    (pressed []).await = .idle ∧ (∀ k : Fin 16, (pressed []).keys[k] = false) ∧
    (pressed [15]).await = .idle ∧ (pressed [15]).keys[(15 : Fin 16)] = true ∧
    (∀ j : Fin 16, j < 15 → (pressed [15]).keys[j] = false) ∧ (pressed [15]).params.awaitKeyMode = .release ∧
    (withParams { Config.params with awaitKeyMode := .level }).params.awaitKeyMode = .level := by decide
theorem witness_AwaitKeyStateMachine_observed :
    let s : State := { pressed [3] with await := .keyObserved 3 }
    let t : State := { pressed [9] with await := .keyObserved 3 }
    s.await = .keyObserved 3 ∧ s.keys[(3 : Fin 16)] = true ∧ t.await = .keyObserved 3 ∧ t.keys[(3 : Fin 16)] = false := by decide

end Sys2Proof.Tests
end

section
/-! Every step answers a next state (00_scope.md R8, 60_exceptions.md R97, R98): the cases of a step, and why none of them is a
fault or a refusal of the host's. -/

namespace Sys2Proof.Machine

/-- Everything a step can be, by what the host has pending: Step() itself, a frame's Step, a frame's end, or an Initialize
(60_exceptions.md R106, R109). -/
theorem step_cases (s : State) :
    (s.host = [] ∧ step s = stepInstr s) ∨
    (∃ n keys rest, s.host = .frame (n + 1) keys :: rest ∧
      step s = stepInstr { s with host := .frame n keys :: rest }) ∨
    (∃ keys rest, s.host = .frame 0 keys :: rest ∧ step s = .next (State.endFrame keys { s with host := rest })) ∨
    (∃ rom rest, s.host = .initRom rom :: rest ∧ step s = .next (State.initRom rom { s with host := rest })) := by
  unfold step
  split
  · next h => exact .inl ⟨h, rfl⟩
  · next n keys rest h => exact .inr (.inl ⟨n, keys, rest, h, rfl⟩)
  · next keys rest h => exact .inr (.inr (.inl ⟨keys, rest, h, rfl⟩))
  · next rom rest h => exact .inr (.inr (.inr ⟨rom, rest, h, rfl⟩))

variable (s : State)

theorem execRet_answers_next : ∃ t, execRet s = .next t := by
  rcases execRet_cases s with ⟨_, e⟩ | ⟨_, e⟩ <;> exact ⟨_, e⟩

theorem execCall_answers_next (nnn : Addr12) : ∃ t, execCall nnn s = .next t := by
  rcases execCall_cases s nnn with ⟨_, e⟩ | ⟨_, e⟩ <;> exact ⟨_, e⟩

/-- Under either KEY_INDEX_POLICY: a skip, or the fault as a halted state. -/
theorem execSkp_answers_next (x : Nibble) : ∃ t, execSkp x s = .next t := by
  unfold execSkp
  cases s.keyAt (s.getV x) <;> exact ⟨_, rfl⟩

theorem execSknp_answers_next (x : Nibble) : ∃ t, execSknp x s = .next t := by
  unfold execSknp
  cases s.keyAt (s.getV x) <;> exact ⟨_, rfl⟩

theorem execLdVxK_answers_next (x : Nibble) : ∃ t, execLdVxK x s = .next t := by
  rcases execLdVxK_cases s x with ⟨_, _, e⟩ | ⟨_, _, _, _, e⟩ | ⟨_, _, _, _, e⟩ | ⟨_, _, _, e⟩ | ⟨_, _, _, e⟩ <;>
    exact ⟨_, e⟩

/-- Executing any instruction answers a next state. Five instructions choose between outcomes, each of them a next state; the others
answer one next state by their definition, a memory operand that does not exist included (`State.withOperandAtI`). -/
theorem exec_answers_next (i : Instr) : ∃ t, exec i s = .next t := by
  cases i with
  | ret => exact execRet_answers_next s
  | call nnn => exact execCall_answers_next s nnn
  | skp x => exact execSkp_answers_next s x
  | sknp x => exact execSknp_answers_next s x
  | ldVxK x => exact execLdVxK_answers_next s x
  | _ => exact ⟨_, rfl⟩

/-- The spec's Step() answers a next state: a halted machine is its own (R98), a fault of the fetch or the decode is a halted state. -/
theorem stepInstr_answers_next : ∃ t, stepInstr s = .next t := by
  rcases stepInstr_cases s with ⟨_, _, e⟩ | ⟨_, _, _, e⟩ | ⟨_, _, _, _, e⟩ | ⟨_, _, i, _, _, e⟩
  · exact ⟨_, e⟩
  · exact ⟨_, e⟩
  · exact ⟨_, e⟩
  · rw [e]
    exact exec_answers_next s i

end Sys2Proof.Machine

open Sys2Proof.Machine

/-- Settles O8: a frame's end and an Initialize are next states by definition, and a Step answers one in each of its cases. -/
theorem everyStepAnswersANextState : Obligations.EveryStepAnswersANextState := by
  intro s
  rcases step_cases s with ⟨_, e⟩ | ⟨_, _, _, _, e⟩ | ⟨_, _, _, e⟩ | ⟨_, _, _, e⟩
  · rw [e]
    exact stepInstr_answers_next _
  · rw [e]
    exact stepInstr_answers_next _
  · exact ⟨_, e⟩
  · exact ⟨_, e⟩
end

section
/-! What executing an instruction does, said once: it takes a fault, or it completes with an effect of its own kind (10_state.md R18,
60_exceptions.md R97). The kinds leave the computed values open, which no frame speaks of. -/

namespace Sys2Proof.Machine

open State

/-- The effect of each kind of instruction where it completes: the operations on the state, with the values they store left open where
no statement about the whole instruction set names them. -/
def completesAs (i : Instr) (s t : State) : Prop :=
  match i with
  | .ldImm x _ | .addImm x _ | .ldReg x _ | .or x _ | .and x _ | .xor x _ | .ldVxDt x => ∃ u, t = s.writeReg x u
  | .rnd x _ => ∃ u, t = s.drawn.writeReg x u
  | .addReg x _ | .sub x _ | .shr x _ | .subn x _ | .shl x _ => ∃ u f, t = s.writeRegFlag x u f
  | .seImm _ _ | .sneImm _ _ | .seReg _ _ | .sneReg _ _ | .skp _ | .sknp _ => ∃ c, t = s.skipIf c
  | .jp nnn => t = s.setPc (zextAddr nnn)
  | .jpV0 nnn => t = s.setPc (zextByte (s.getV 0) + zextAddr nnn)
  | .call nnn => ∃ h : s.sp.val < 16, t =
      { s with stack := s.stack.set s.sp.val (s.pc + 2) h, sp := ⟨s.sp.val + 1, by omega⟩, pc := zextAddr nnn }
  | .ret => ∃ h : 0 < s.sp.val, t =
      { s with sp := ⟨s.sp.val - 1, by omega⟩, pc := s.stack[s.sp.val - 1]'(by omega) }
  | .cls => t = (s.setFb Framebuffer.clear).advance 2
  | .drw _ _ _ => ∃ fb f, t = ((s.setFb fb).setFlag f).advance 2
  | .ldI _ | .ldFVx _ => ∃ w, t = (s.setIndex w).advance 2
  | .addIVx _ => ∃ w f, t = ((s.setIndex w).setFlag f).advance 2
  | .ldBVx _ => ∃ us, t = (s.setBytes s.index.toNat us).advance 2
  | .ldMemVx x => ∃ us, t = (indexPast x (s.setBytes s.index.toNat us)).advance 2
  | .ldVxMem x => ∃ us, us.length = x.toNat + 1 ∧ t = (indexPast x { s with v := loadRegs s.v 0 us }).advance 2
  | .ldDtVx _ => ∃ u, t = (s.setDelay u).advance 2
  | .ldStVx _ => ∃ u, t = (s.setSound u).advance 2
  | .ldVxK x => t = s ∨ (∃ k, t = s.setAwait (.keyObserved k)) ∨ ∃ k, t = s.resolveKey x k

/-- Every answer of an instruction: a fault, which only those R95 names can take, or the effect of its kind. -/
theorem exec_faults_or_completes {i : Instr} {s t : State} (h : exec i s = .next t) :
    (canFault i = true ∧ ∃ f info, t = s.raiseBy i f info) ∨ completesAs i s t := by
  cases i with
  | ret =>
    rcases execRet_cases s with ⟨hsp, e⟩ | ⟨_, e⟩ <;> cases e.symm.trans h
    · exact .inr ⟨hsp, rfl⟩
    · exact .inl ⟨rfl, _, _, rfl⟩
  | call nnn =>
    rcases execCall_cases s nnn with ⟨hsp, e⟩ | ⟨_, e⟩ <;> cases e.symm.trans h
    · exact .inr ⟨hsp, rfl⟩
    · exact .inl ⟨rfl, _, _, rfl⟩
  | drw x y n =>
    rcases execDrw_cases s x y n with ⟨_, e⟩ | ⟨_, _, e⟩ <;> cases e.symm.trans h
    · exact .inr ⟨_, _, rfl⟩
    · exact .inl ⟨rfl, _, _, rfl⟩
  | ldBVx x =>
    rcases execLdBVx_cases s x with ⟨_, e⟩ | ⟨_, e⟩ <;> cases e.symm.trans h
    · exact .inr ⟨_, rfl⟩
    · exact .inl ⟨rfl, _, _, rfl⟩
  | ldMemVx x =>
    rcases execLdMemVx_cases s x with ⟨_, e⟩ | ⟨_, e⟩ <;> cases e.symm.trans h
    · exact .inr ⟨_, rfl⟩
    · exact .inl ⟨rfl, _, _, rfl⟩
  | ldVxMem x =>
    rcases execLdVxMem_cases s x with ⟨_, e⟩ | ⟨_, e⟩ <;> cases e.symm.trans h
    · exact .inr ⟨_, length_bytesAt _ _ _, rfl⟩
    · exact .inl ⟨rfl, _, _, rfl⟩
  | skp x =>
    simp only [exec, execSkp] at h
    split at h <;> cases h
    · exact .inr ⟨_, rfl⟩
    · exact .inl ⟨rfl, _, _, rfl⟩
  | sknp x =>
    simp only [exec, execSknp] at h
    split at h <;> cases h
    · exact .inr ⟨_, rfl⟩
    · exact .inl ⟨rfl, _, _, rfl⟩
  | ldVxK x =>
    rcases execLdVxK_cases s x with ⟨_, _, e⟩ | ⟨k, _, _, _, e⟩ | ⟨k, _, _, _, e⟩ | ⟨_, _, _, e⟩ | ⟨k, _, _, e⟩ <;>
      cases e.symm.trans h
    · exact .inr (.inl rfl)
    · exact .inr (.inr (.inr ⟨k, rfl⟩))
    · exact .inr (.inr (.inl ⟨k, rfl⟩))
    · exact .inr (.inl rfl)
    · exact .inr (.inr (.inr ⟨k, rfl⟩))
  | addReg | sub | shr | subn | shl | addIVx => cases h; exact .inr ⟨_, _, rfl⟩
  | jp | jpV0 | cls => cases h; exact .inr rfl
  | _ => cases h; exact .inr ⟨_, rfl⟩

end Sys2Proof.Machine
end

section
/-! What every instruction leaves as it was (10_state.md R14, R15, R29), and how each kind moves PC (R18). -/

namespace Sys2Proof.Machine

open State

/-- What instruction `i` leaves as it was from `s` to `t`: each piece of state it is no writer of (R29). -/
structure WritesOnlyListed (i : Instr) (s t : State) : Prop where
  index  : writesIndex i = false → t.index = s.index
  sp     : writesSp i = false → t.sp = s.sp
  stack  : (∀ nnn, i ≠ .call nnn) → t.stack = s.stack
  dt     : (∀ x, i ≠ .ldDtVx x) → t.dt = s.dt
  st     : (∀ x, i ≠ .ldStVx x) → t.st = s.st
  fb     : writesFramebuffer i = false → t.fb = s.fb
  mem    : writesMemory i = false → t.mem = s.mem
  await  : (∀ x, i ≠ .ldVxK x) → t.await = s.await
  run    : canFault i = false → t.run = s.run
  draws  : (∀ x nn, i ≠ .rnd x nn) → t.draws = s.draws
  keys   : t.keys = s.keys
  params : t.params = s.params
  host   : t.host = s.host

/-- A fault writes RUN alone (60_exceptions.md R97). -/
theorem raiseBy_writesOnlyListed {i : Instr} (s : State) (f : Fault) (info : Option Nat) (h : canFault i = true) :
    WritesOnlyListed i s (s.raiseBy i f info) := by
  constructor <;> simp [h]

/-- A completing instruction writes what R29 lists for its kind. -/
theorem completesAs_writesOnlyListed {i : Instr} {s t : State} (h : completesAs i s t) : WritesOnlyListed i s t := by
  cases i with
  | ldImm | addImm | ldReg | or | and | xor | ldVxDt | rnd =>
    obtain ⟨u, rfl⟩ := h
    constructor <;> simp [writeReg]
  | addReg | sub | shr | subn | shl =>
    obtain ⟨u, f, rfl⟩ := h
    constructor <;> simp [writeRegFlag]
  | seImm | sneImm | seReg | sneReg | skp | sknp =>
    obtain ⟨c, rfl⟩ := h
    constructor <;> simp [skipIf]
  | call =>
    obtain ⟨hsp, rfl⟩ := h
    constructor <;> simp [writesSp]
  | ret =>
    obtain ⟨hsp, rfl⟩ := h
    constructor <;> simp [writesSp]
  | jp | jpV0 | cls =>
    cases h
    constructor <;> simp [writesFramebuffer]
  | drw | addIVx =>
    obtain ⟨w, f, rfl⟩ := h
    constructor <;> simp [writesFramebuffer, writesIndex]
  | ldVxMem =>
    obtain ⟨us, _, rfl⟩ := h
    constructor <;> simp [indexPast, writesIndex]
  | ldVxK =>
    rcases h with rfl | ⟨k, rfl⟩ | ⟨k, rfl⟩ <;> constructor <;> simp [resolveKey, writeReg]
  | ldI | ldFVx | ldBVx | ldMemVx | ldDtVx | ldStVx =>
    obtain ⟨u, rfl⟩ := h
    constructor <;> simp [indexPast, writesIndex, writesMemory]

/-- Executing an instruction writes only what R29 lists for it, whether it completes or takes a fault. -/
theorem exec_writesOnlyListed {i : Instr} {s t : State} (h : exec i s = .next t) : WritesOnlyListed i s t := by
  rcases exec_faults_or_completes h with ⟨hi, f, info, rfl⟩ | hc
  · exact raiseBy_writesOnlyListed s f info hi
  · exact completesAs_writesOnlyListed hc

/-- Memory with the same parameters and the same cells reads the same at every address. -/
theorem sameMemory_of_mem {s t : State} (hp : t.params = s.params) (hm : t.mem = s.mem) : sameMemory s t := by
  intro a
  simp [byteAt, hp, hm]

/-- A completing instruction leaves RUN as it was. -/
theorem completesAs_run {i : Instr} {s t : State} (h : completesAs i s t) : t.run = s.run := by
  cases i with
  | drw =>
    obtain ⟨fb, f, rfl⟩ := h
    rfl
  | call | ret | skp | sknp | ldBVx | ldMemVx =>
    obtain ⟨_, rfl⟩ := h
    rfl
  | ldVxMem =>
    obtain ⟨us, _, rfl⟩ := h
    rfl
  | _ => exact (completesAs_writesOnlyListed h).run rfl

/-- A completing instruction changes a register of V only as its destination, or VF as a flag (R14, R15). -/
theorem completesAs_getV {i : Instr} {s t : State} {z : Nibble} (h : completesAs i s t) (hz : isDestination z i = false)
    (hf : z = 0xF → writesFlag i = false) : t.getV z = s.getV z := by
  cases i with
  | ldImm | addImm | ldReg | or | and | xor | ldVxDt | rnd =>
    obtain ⟨u, rfl⟩ := h
    exact (getV_writeReg ..).trans (if_neg (by simpa [isDestination] using hz))
  | addReg | sub | shr | subn | shl =>
    obtain ⟨u, f, rfl⟩ := h
    have hF : z ≠ 0xF := fun e => nomatch hf e
    rw [getV_writeRegFlag, if_neg (by simpa [isDestination] using hz), if_neg hF]
  | drw | addIVx =>
    obtain ⟨w, f, rfl⟩ := h
    have hF : z ≠ 0xF := fun e => nomatch hf e
    rw [getV_advance, getV_setFlag, if_neg hF]
    rfl
  | ldVxMem x =>
    obtain ⟨us, hlen, rfl⟩ := h
    have hzx : ¬ z.toNat ≤ x.toNat := by simpa [isDestination] using hz
    exact loadRegs_other _ _ _ _ z.isLt (.inr (by omega))
  | ldVxK x =>
    rcases h with rfl | ⟨k, rfl⟩ | ⟨k, rfl⟩
    · rfl
    · rfl
    · exact (getV_writeReg ..).trans (if_neg (by simpa [isDestination] using hz))
  | jp | jpV0 | cls =>
    cases h
    rfl
  | _ =>
    obtain ⟨_, rfl⟩ := h
    rfl

/-- The address field fits in 16 bits (30_encoding.md R50). -/
theorem zextAddr_toNat (nnn : Addr12) : (zextAddr nnn).toNat = nnn.toNat := by
  simp only [zextAddr, BitVec.toNat_ofNat]
  omega

/-- The sum of BNNN does not wrap (41_control_flow.md R66). -/
theorem zextByte_add_zextAddr_toNat (u : Byte) (nnn : Addr12) :
    (zextByte u + zextAddr nnn).toNat = u.toNat + nnn.toNat := by
  simp only [BitVec.toNat_add, zextAddr, zextByte, BitVec.toNat_ofNat]
  omega

/-- Where an instruction of each kind leaves PC when it completes (R18). -/
def movesPcByKind (i : Instr) (s t : State) : Prop :=
  match i with
  | .jp nnn | .call nnn => t.pc.toNat = nnn.toNat
  | .jpV0 nnn => t.pc.toNat = (s.getV 0).toNat + nnn.toNat
  | .ret => ∃ j : Fin 16, s.sp.val = j.val + 1 ∧ t.pc = s.stack[j]
  | .seImm _ _ | .sneImm _ _ | .seReg _ _ | .sneReg _ _ | .skp _ | .sknp _ => t.pc = s.pc + 4 ∨ t.pc = s.pc + 2
  | .ldVxK _ => t.pc = s.pc ∨ t.pc = s.pc + 2
  | _ => t.pc = s.pc + 2

/-- A completing instruction moves PC in the way of its kind. -/
theorem completesAs_movesPcByKind {i : Instr} {s t : State} (h : completesAs i s t) : movesPcByKind i s t := by
  cases i with
  | jp nnn =>
    cases h
    exact zextAddr_toNat nnn
  | call nnn =>
    obtain ⟨_, rfl⟩ := h
    exact zextAddr_toNat nnn
  | jpV0 nnn =>
    cases h
    exact zextByte_add_zextAddr_toNat _ nnn
  | ret =>
    obtain ⟨hsp, rfl⟩ := h
    exact ⟨⟨s.sp.val - 1, by omega⟩, by simp; omega, rfl⟩
  | seImm | sneImm | seReg | sneReg | skp | sknp =>
    obtain ⟨c, rfl⟩ := h
    cases c
    · exact .inr rfl
    · exact .inl rfl
  | ldVxK =>
    rcases h with rfl | ⟨k, rfl⟩ | ⟨k, rfl⟩
    · exact .inl rfl
    · exact .inl rfl
    · exact .inr rfl
  | addReg | sub | shr | subn | shl | drw | addIVx =>
    obtain ⟨_, _, rfl⟩ := h
    rfl
  | ldVxMem =>
    obtain ⟨_, _, rfl⟩ := h
    rfl
  | cls =>
    cases h
    rfl
  | _ =>
    obtain ⟨_, rfl⟩ := h
    rfl

end Sys2Proof.Machine
end

section
/-! What every step keeps, packaged once, and the invariants of PC, the return addresses and AWAIT (10_state.md R19, R21, R25). -/

namespace Sys2Proof.Machine

open State

/-! ## Packaging the induction over a step -/

section

variable {P : State → Prop} {s t : State}

/-- A property that taking a fault and executing a fetched instruction keep is kept by a Step. -/
theorem stepInstr_keeps (hraise : ∀ f word info, P (s.raise f word info))
    (hexec : ∀ w i, s.run = .running → s.fetch = .ok w → decodeWord w = some i → exec i s = .next t → P t)
    (hs : P s) (h : stepInstr s = .next t) : P t := by
  rcases stepInstr_cases s with ⟨_, _, e⟩ | ⟨_, _, _, e⟩ | ⟨_, _, _, _, e⟩ | ⟨hr, w, i, hf, hd, e⟩ <;> rw [e] at h
  · cases h
    exact hs
  · cases h
    exact hraise _ _ _
  · cases h
    exact hraise _ _ _
  · exact hexec w i hr hf hd h

/-- A property that does not look at what is pending, and that a Step, a frame's end and an Initialize keep, is kept by every step. -/
theorem step_keeps (hhost : ∀ s l, P s → P { s with host := l }) (hstep : ∀ s t, P s → stepInstr s = .next t → P t)
    (hend : ∀ k s, P s → P (s.endFrame k)) (hinit : ∀ rom s, P s → P (initRom rom s))
    (hs : P s) (h : step s = .next t) : P t := by
  rcases step_cases s with ⟨_, e⟩ | ⟨n, keys, rest, _, e⟩ | ⟨keys, rest, _, e⟩ | ⟨rom, rest, _, e⟩ <;> rw [e] at h
  · exact hstep s t hs h
  · exact hstep _ t (hhost s _ hs) h
  · cases h
    exact hend keys _ (hhost s rest hs)
  · cases h
    exact hinit rom _ (hhost s rest hs)

end

/-! ## PC and the return addresses (R19, R21) -/

/-- A word is fetched only where both its bytes exist. -/
theorem fetch_ok_pc {s : State} {w : Word} (h : s.fetch = .ok w) : s.pc.toNat + 1 < s.memSize := by
  rcases fetch_cases s with ⟨hpc, _⟩ | ⟨_, e⟩ | ⟨_, e⟩
  · exact hpc
  · exact nomatch e.symm.trans h
  · exact nomatch e.symm.trans h

/-- PC + 2 of a fetched instruction does not wrap: it is at most MEM_SIZE (R19). -/
theorem pc_add_two_le {s : State} (h : s.pc.toNat + 1 < s.memSize) : (s.pc + 2).toNat ≤ s.memSize := by
  have := (memSize_bounds s).2
  rw [BitVec.toNat_add]
  simp
  omega

/-- Nor does the PC + 4 of a skip. -/
theorem pc_add_four_le {s : State} (h : s.pc.toNat + 1 < s.memSize) : (s.pc + 4).toNat ≤ 0x10FE := by
  have := (memSize_bounds s).2
  rw [BitVec.toNat_add]
  simp
  omega

/-- MEM_SIZE is a parameter, so no instruction changes it. -/
theorem exec_memSize {i : Instr} {s t : State} (h : exec i s = .next t) : t.memSize = s.memSize := by
  rw [memSize, memSize, (exec_writesOnlyListed h).params]

/-- An instruction leaves each stack entry, or stores the return address PC + 2 there (10_state.md R21). -/
theorem exec_stack_entry {i : Instr} {s t : State} (h : exec i s = .next t) (j : Fin 16) :
    t.stack[j] = s.stack[j] ∨ t.stack[j] = s.pc + 2 := by
  by_cases hi : ∃ nnn, i = .call nnn
  · obtain ⟨nnn, rfl⟩ := hi
    rcases execCall_cases s nnn with ⟨hsp, e⟩ | ⟨_, e⟩ <;> cases e.symm.trans h
    · by_cases hj : s.sp.val = j.val
      · exact .inr (by simp [hj])
      · exact .inl (by simp [hj])
    · exact .inl rfl
  · rw [(exec_writesOnlyListed h).stack fun nnn e => hi ⟨nnn, e⟩]
    exact .inl rfl

/-- The largest PC that any kind of instruction can write is 0x10FE, by BNNN (R19). -/
theorem movesPcByKind_pc_le {i : Instr} {s t : State} (hpc : s.pc.toNat + 1 < s.memSize)
    (hstack : ∀ j : Fin 16, (s.stack[j]).toNat ≤ s.memSize) (h : movesPcByKind i s t) : t.pc.toNat ≤ 0x10FE := by
  have hm := (memSize_bounds s).2
  have h2 := pc_add_two_le hpc
  have h4 := pc_add_four_le hpc
  cases i with
  | jp nnn | call nnn =>
    have e : t.pc.toNat = nnn.toNat := h
    omega
  | jpV0 nnn =>
    have e : t.pc.toNat = (s.getV 0).toNat + nnn.toNat := h
    omega
  | ret =>
    obtain ⟨j, _, e⟩ := h
    have := hstack j
    rw [e]
    omega
  | seImm | sneImm | seReg | sneReg | skp | sknp =>
    rcases h with e | e <;> rw [e] <;> omega
  | ldVxK =>
    rcases h with e | e <;> rw [e] <;> omega
  | _ =>
    have e : t.pc = s.pc + 2 := h
    rw [e]
    omega

/-- Executing a fetched instruction keeps PC and the return addresses in their bounds. -/
theorem exec_keeps_pcOk {i : Instr} {s t : State} (hpc : s.pc.toNat + 1 < s.memSize) (hs : s.pcOk)
    (h : exec i s = .next t) : t.pcOk := by
  obtain ⟨hle, hstack⟩ := hs
  refine ⟨?_, fun j => ?_⟩
  · rcases exec_faults_or_completes h with ⟨_, f, info, rfl⟩ | hc
    · exact hle
    · exact movesPcByKind_pc_le hpc hstack (completesAs_movesPcByKind hc)
  · rw [exec_memSize h]
    rcases exec_stack_entry h j with e | e <;> rw [e]
    · exact hstack j
    · exact pc_add_two_le hpc

/-- Initialize puts PC at PROG_BASE and 0 in every stack entry. -/
theorem initRom_pcOk (rom : List Byte) (s : State) : (initRom rom s).pcOk := by
  refine ⟨by simp [initRom, Config.progBase], fun j => ?_⟩
  simp [initRom]

/-! ## AWAIT and the word at PC (R25) -/

/-- The fetch reads the parameters, PC and memory, and nothing else. -/
theorem fetch_congr {s t : State} (hp : t.params = s.params) (hpc : t.pc = s.pc) (hm : t.mem = s.mem) : t.fetch = s.fetch := by
  cases s
  cases t
  cases hp
  cases hpc
  cases hm
  rfl

theorem atAwaitKey_congr {s t : State} (hp : t.params = s.params) (hpc : t.pc = s.pc) (hm : t.mem = s.mem) :
    t.atAwaitKey = s.atAwaitKey := by
  simp only [atAwaitKey, fetch_congr hp hpc hm]

/-- The word at PC is an FX0A exactly when what is fetched decodes to one. -/
theorem atAwaitKey_iff {s : State} {w : Word} {i : Instr} (hf : s.fetch = .ok w) (hd : decodeWord w = some i) :
    s.atAwaitKey = true ↔ ∃ x, i = .ldVxK x := by
  simp only [atAwaitKey, hf, hd]
  cases i <;> simp

/-- Executing the fetched instruction keeps AWAIT at its FX0A: only FX0A writes AWAIT, and it stays at its own PC while a key is
observed. -/
theorem exec_keeps_awaitOk {w : Word} {i : Instr} {s t : State} (hf : s.fetch = .ok w) (hd : decodeWord w = some i)
    (hs : s.awaitOk) (h : exec i s = .next t) : t.awaitOk := by
  by_cases hi : ∃ x, i = .ldVxK x
  · have hat := (atAwaitKey_iff hf hd).2 hi
    obtain ⟨x, rfl⟩ := hi
    rcases (exec_faults_or_completes h).resolve_left (by simp [canFault]) with rfl | ⟨k, rfl⟩ | ⟨k, rfl⟩
    · exact hs
    · exact .inr ((atAwaitKey_congr (s := s) rfl rfl rfl).trans hat)
    · exact .inl rfl
  · have hidle := hs.resolve_right (mt (atAwaitKey_iff hf hd).1 hi)
    exact .inl (((exec_writesOnlyListed h).await fun x e => hi ⟨x, e⟩).trans hidle)

end Sys2Proof.Machine
end

section
/-! What an instruction does not read (10_state.md R22, R24, R29): it does the same after KEYS or ST is replaced, for every replacement
it does not look at. -/

namespace Sys2Proof.Machine

open State

/-- Memory with the same parameters and the same cells gives the same bytes from an address upward. -/
theorem bytesAt_congr {s t : State} (hp : t.params = s.params) (hm : t.mem = s.mem) (a len : Nat) :
    t.bytesAt a len = s.bytesAt a len := by
  induction len generalizing a with
  | zero => rfl
  | succ n ih => rw [bytesAt, bytesAt, sameMemory_of_mem hp hm a, ih]

/-- KEYS and ST replaced, each by its own function, and nothing else. -/
def withInputs (κ : Keypad → Keypad) (σ : Byte → Byte) (s : State) : State := { s with keys := κ s.keys, st := σ s.st }

section

variable (κ : Keypad → Keypad) (σ : Byte → Byte) (s : State)

theorem bytesAt_withInputs (a len : Nat) : (withInputs κ σ s).bytesAt a len = s.bytesAt a len :=
  bytesAt_congr (by rfl) (by rfl) a len

theorem drawAtI_withInputs (x y n : Nibble) : drawAtI x y n (withInputs κ σ s) = withInputs κ σ (drawAtI x y n s) := by
  rw [drawAtI, bytesAt_withInputs]
  rfl

/-- Neither the range check nor the fault of a memory operand reads KEYS or ST. -/
theorem withOperandAtI_withInputs (i : Instr) (len : Nat) {act act' : State} (h : act' = withInputs κ σ act) :
    (withInputs κ σ s).withOperandAtI i len act' = withInputs κ σ (s.withOperandAtI i len act) := by
  have e : (withInputs κ σ s).overflowAt (withInputs κ σ s).index.toNat len = s.overflowAt s.index.toNat len := rfl
  simp only [withOperandAtI, e, h]
  cases s.overflowAt s.index.toNat len <;> rfl

/-- An instruction that does not read KEYS, unless they stay, and does not write ST, unless it stays, does the same after both are
replaced. -/
theorem exec_withInputs (i : Instr) (hκ : readsKeys i = true → κ = id) (hσ : (∃ x, i = .ldStVx x) → σ = id) :
    exec i (withInputs κ σ s) = mapNext (withInputs κ σ) (exec i s) := by
  have op := withOperandAtI_withInputs κ σ s i
  cases i with
  | ret =>
    simp only [exec, execRet, pop]
    by_cases hsp : 0 < s.sp.val <;> simp [hsp, mapNext, withInputs] <;> rfl
  | call nnn =>
    simp only [exec, execCall, push]
    by_cases hsp : s.sp.val < 16 <;> simp [hsp, mapNext, withInputs] <;> rfl
  | drw x y n => exact congrArg Host.Outcome.next (op _ (drawAtI_withInputs κ σ s x y n))
  | ldBVx x => exact congrArg Host.Outcome.next (op _ rfl)
  | ldMemVx x => exact congrArg Host.Outcome.next (op _ rfl)
  | ldVxMem x =>
    refine congrArg Host.Outcome.next (op _ ?_)
    rw [bytesAt_withInputs]
    rfl
  | skp x =>
    cases hκ rfl
    have e : (withInputs id σ s).keyAt ((withInputs id σ s).getV x) = s.keyAt (s.getV x) := rfl
    simp only [exec, execSkp, e]
    cases s.keyAt (s.getV x) <;> rfl
  | sknp x =>
    cases hκ rfl
    have e : (withInputs id σ s).keyAt ((withInputs id σ s).getV x) = s.keyAt (s.getV x) := rfl
    simp only [exec, execSknp, e]
    cases s.keyAt (s.getV x) <;> rfl
  | ldVxK x =>
    cases hκ rfl
    have ha : (withInputs id σ s).await = s.await := rfl
    have hl : (withInputs id σ s).lowestKey = s.lowestKey := rfl
    have hm : (withInputs id σ s).params = s.params := rfl
    have hk : (withInputs id σ s).keys = s.keys := rfl
    simp only [exec, execLdVxK, ha, hl, hm, hk]
    cases s.await with
    | idle =>
      cases s.lowestKey with
      | none => rfl
      | some k => cases s.params.awaitKeyMode <;> rfl
    | keyObserved k => dsimp only; split <;> rfl
  | ldStVx x =>
    cases hσ ⟨x, rfl⟩
    rfl
  | _ => rfl

end

theorem mapNext_mapNext (f g : State → State) (r : Result) : mapNext g (mapNext f r) = mapNext (g ∘ f) r := by
  cases r <;> rfl

end Sys2Proof.Machine
end

section
/-! The timers (10_state.md R22, 60_exceptions.md R104) and the contents of memory after reset (20_memory.md R37, R39). -/

namespace Sys2Proof.Machine

open State

/-- Tick and LatchKeys end a frame: what they leave, running or halted. -/
theorem endFrame_eq (k : Keypad) (s : State) : s.endFrame k = { s with dt := s.tick.dt, st := s.tick.st, keys := k } := by
  unfold endFrame tick
  split <;> rfl

/-- Tick does not read what is pending. -/
theorem tick_withHost (s : State) (l : List HostOp) : State.tick { s with host := l } = { s.tick with host := l } := by
  unfold tick
  dsimp only
  split <;> rfl

/-- Below 0x050 an unlisted address reads as the font: glyph d's byte k at 5 * d + k (R39). -/
theorem unlisted_glyph (font : Font) (d : Fin 16) (k : Fin 5) : Memory.unlisted font (5 * d.val + k.val) = font[d][k] := by
  have h : 5 * d.val + k.val < 80 := by omega
  have hd : (5 * d.val + k.val) / 5 = d.val := by omega
  have hk : (5 * d.val + k.val) % 5 = k.val := by omega
  simp [Memory.unlisted, h, hd, hk]

/-- From 0x050 upward an unlisted address reads as 0 (R37). -/
theorem unlisted_above_font (font : Font) {a : Nat} (h : 80 ≤ a) : Memory.unlisted font a = 0 :=
  dif_neg (Nat.not_lt.mpr h)

end Sys2Proof.Machine
end

section
/-! The statements about the state: the three invariants, the frame of every instruction, and the timers (10_state.md). -/

open Sys2Proof Sys2Proof.Machine

/-- Settles O18: a fetch succeeds only below MEM_SIZE, so PC + 2 and PC + 4 do not wrap, and no other way of moving PC passes 0x10FE. -/
theorem stepKeepsPcInBounds : Obligations.StepKeepsPcInBounds := by
  intro s t
  refine step_keeps (P := State.pcOk) ?_ ?_ ?_ ?_
  · exact fun s l hs => hs
  · exact fun s t hs => stepInstr_keeps (fun _ _ _ => hs)
      (fun w i _ hf _ h => exec_keeps_pcOk (fetch_ok_pc hf) hs h) hs
  · intro k s hs
    simpa [State.pcOk, State.memSize] using hs
  · exact fun rom s _ => initRom_pcOk rom s

/-- Settles O19: only FX0A leaves AWAIT observing a key, and then PC and memory stay as they were when it was fetched. -/
theorem stepKeepsAwaitAtItsInstruction : Obligations.StepKeepsAwaitAtItsInstruction := by
  intro s t
  refine step_keeps (P := State.awaitOk) ?_ ?_ ?_ ?_
  · exact fun s l hs => hs
  · exact fun s t hs => stepInstr_keeps (fun _ _ _ => hs) (fun w i _ hf hd h => exec_keeps_awaitOk hf hd hs h) hs
  · intro k s hs
    rwa [State.awaitOk, State.endFrame_await, atAwaitKey_congr (s := s) (by simp) (by simp) (by simp)]
  · exact fun rom s _ => .inl rfl

/-- Settles O11: an instruction that completes leaves RUN as it was, so a halted result is a fault, which leaves PC. -/
theorem eachInstructionMovesPcByItsKind : Obligations.EachInstructionMovesPcByItsKind := by
  intro i s t hrun h
  rcases exec_faults_or_completes h with ⟨_, f, info, rfl⟩ | hc
  · exact ⟨fun _ => rfl, fun hr => nomatch hr⟩
  · exact ⟨fun hr => absurd ((completesAs_run hc).trans hrun) hr, fun _ => completesAs_movesPcByKind hc⟩

/-- Settles O12: a fault leaves V as it was, and a completing instruction is covered by its kind. -/
theorem onlyFlagWritersAndDestinationsChangeV : Obligations.OnlyFlagWritersAndDestinationsChangeV := by
  intro i s t z h hz hf
  rcases exec_faults_or_completes h with ⟨_, f, info, rfl⟩ | hc
  · rfl
  · exact completesAs_getV hc hz hf

/-- Settles O13: the frame of every instruction, with the bytes of memory read through it. -/
theorem onlyTheListedInstructionsWriteEachRegister : Obligations.OnlyTheListedInstructionsWriteEachRegister := by
  intro i s t h
  have w := exec_writesOnlyListed h
  exact ⟨w.index, w.sp, w.stack, w.dt, w.st, w.fb, fun hi => ⟨w.mem hi, sameMemory_of_mem w.params (w.mem hi)⟩,
    w.await, w.run, w.draws, w.keys, w.params, w.host⟩

/-- Settles O14: KEYS is replaced and ST stays. -/
theorem keysAreReadOnlyByKeypadInstructions : Obligations.KeysAreReadOnlyByKeypadInstructions := by
  intro i s k h
  exact exec_withInputs (fun _ => k) id s i (fun hr => nomatch h.symm.trans hr) (fun _ => rfl)

/-- Settles O15: FX18 overwrites ST, and every other instruction does the same when ST is replaced and KEYS stays. -/
theorem soundTimerIsReadByNoInstruction : Obligations.SoundTimerIsReadByNoInstruction := by
  intro i s u
  by_cases hi : ∃ x, i = .ldStVx x
  · obtain ⟨x, rfl⟩ := hi
    rfl
  · have e := exec_withInputs id (fun _ => u) s i (fun _ => rfl) (fun hx => absurd hx hi)
    exact (congrArg _ e).trans (mapNext_mapNext _ _ _)

/-- Settles O21: no instruction, fault or host operation writes the parameters. -/
theorem stepKeepsTheParameters : Obligations.StepKeepsTheParameters := by
  intro s t
  refine step_keeps (P := fun u => u.params = s.params) ?_ ?_ ?_ ?_ rfl
  · exact fun _ _ hu => hu
  · exact fun u v hu => stepInstr_keeps (P := fun u => u.params = s.params) (fun _ _ _ => hu)
      (fun _ _ _ _ _ h => (exec_writesOnlyListed h).params.trans hu) hu
  · exact fun k u hu => (State.endFrame_params k u).trans hu
  · exact fun _ _ hu => hu

/-- Settles O22: what is left of a step there is a Step, and no instruction writes KEYS. -/
theorem keysChangeOnlyAtAFrameBoundary : Obligations.KeysChangeOnlyAtAFrameBoundary := by
  have hkeys : ∀ s t : State, stepInstr s = .next t → t.keys = s.keys := fun s t =>
    stepInstr_keeps (P := fun u => u.keys = s.keys) (fun _ _ _ => rfl)
      (fun _ _ _ _ _ h => (exec_writesOnlyListed h).keys) rfl
  rintro s t h (hh | ⟨n, keys, rest, hh⟩) <;> simp only [step, hh] at h
  · exact hkeys s t h
  · exact (hkeys _ t h).trans rfl

/-- Settles O37: CALL leaves the return address on top of the stack and RET pops the top. -/
theorem returnResumesAfterTheCall : Obligations.ReturnResumesAfterTheCall := by
  intro nnn s hsp
  rcases execCall_cases s nnn with ⟨hlt, e⟩ | ⟨h16, _⟩
  · refine ⟨_, e, fun u husp hustack => ?_⟩
    rcases execRet_cases u with ⟨_, e'⟩ | ⟨h0, _⟩
    · refine e'.trans ?_
      simp [husp, hustack]
    · simp [h0] at husp
  · exact absurd h16 hsp

/-- Settles O20: at reset memory lists no cell, PC is 0x200, every return address is 0 and AWAIT is Idle. -/
theorem resetMeetsTheInvariants : Obligations.ResetMeetsTheInvariants := by
  refine ⟨rfl, ⟨by decide, fun j => ?_⟩, .inl rfl⟩
  simp [State.reset]

/-- Settles O23: every register by its definition, and memory by what an address that no cell lists reads as. -/
theorem resetHoldsTheStatedValues : Obligations.ResetHoldsTheStatedValues := by
  have hv : ∀ x, State.reset.getV x = 0 := fun x => by simp [State.getV, State.reset]
  have hstack : ∀ j : Fin 16, State.reset.stack[j] = 0 := fun j => by simp [State.reset]
  have hkeys : ∀ k : Fin 16, State.reset.keys[k] = false := fun k => by simp [State.reset]
  exact ⟨hv, rfl, rfl, rfl, hstack, rfl, rfl, Framebuffer.pixel_clear, hkeys, rfl, rfl,
    unlisted_glyph State.reset.params.font, fun _ => unlisted_above_font State.reset.params.font⟩

/-- Settles O26: each timer counts down by itself on a running machine. -/
theorem tickLowersEachTimerToZero : Obligations.TickLowersEachTimerToZero := by
  refine fun s => ⟨fun h => ?_, fun r h => State.tick_halted h⟩
  rw [State.tick_running h]
  exact ⟨State.countDown_toNat s.dt, State.countDown_toNat s.st, rfl⟩

/-- Settles O27, by induction on the number of ticks: a tick leaves the machine running. -/
theorem timersAfterManyTicks : Obligations.TimersAfterManyTicks := by
  intro k
  induction k with
  | zero => exact fun s _ => ⟨rfl, rfl⟩
  | succ k ih =>
    intro s h
    have hrun : s.tick.run = .running := by rw [State.tick_running h]; exact h
    obtain ⟨hdt, hst, _⟩ := (tickLowersEachTimerToZero s).1 h
    rw [Function.iterate_succ_apply, (ih _ hrun).1, (ih _ hrun).2, hdt, hst]
    omega

/-- Settles O59: a frame's end as one update, and the step of a pending frame with no Steps left. -/
theorem frameEndTicksAndLatchesTheKeys : Obligations.FrameEndTicksAndLatchesTheKeys := by
  refine fun s k => ⟨rfl, endFrame_eq k s, fun rest => congrArg Host.Outcome.next ?_⟩
  rw [endFrame_eq]
  simp only [tick_withHost]
end

section
/-! A decoded word is the encoding of what it decodes to (30_encoding.md R51, R53), one lemma per decoder of an op nibble: no free bit
of a format is dropped. -/

namespace Sys2Proof

/-- Format A with the op nibble a word has. -/
theorem formatA_of_opField {w : Word} {op : Nibble} (h : (opField w).toNat = op.toNat) : formatA op (nnnField w) = w := by
  rw [← BitVec.eq_of_toNat_eq h, formatA_fields]

/-- Formats XB and X with the op nibble a word has. -/
theorem formatXB_of_opField {w : Word} {op : Nibble} (h : (opField w).toNat = op.toNat) :
    formatXB op (xField w) (nnField w) = w := by
  rw [← BitVec.eq_of_toNat_eq h, formatXB_fields]

/-- Formats XY and XYN with the op nibble a word has. -/
theorem formatXYN_of_opField {w : Word} {op : Nibble} (h : (opField w).toNat = op.toNat) :
    formatXYN op (xField w) (yField w) (nField w) = w := by
  rw [← BitVec.eq_of_toNat_eq h, formatXYN_fields]

theorem encode_of_decodeZero {w : Word} {i : Instr} (h : decodeZero w = some i) : encode i = w := by
  unfold decodeZero at h
  split at h
  · next hw => cases h; exact hw.symm
  · split at h
    · next hw => cases h; exact hw.symm
    · cases h

theorem encode_of_decodeArith {x y n : Nibble} {i : Instr} (h : decodeArith x y n = some i) :
    encode i = formatXYN 0x8 x y n := by
  unfold decodeArith at h
  split at h <;> cases h <;> next hn => exact congrArg (formatXYN 0x8 x y) (BitVec.eq_of_toNat_eq hn.symm)

theorem encode_of_decodeKey {x : Nibble} {nn : Byte} {i : Instr} (h : decodeKey x nn = some i) :
    encode i = formatXB 0xE x nn := by
  unfold decodeKey at h
  split at h <;> cases h <;> next hnn => exact congrArg (formatXB 0xE x) (BitVec.eq_of_toNat_eq hnn.symm)

theorem encode_of_decodeMisc {x : Nibble} {nn : Byte} {i : Instr} (h : decodeMisc x nn = some i) :
    encode i = formatXB 0xF x nn := by
  unfold decodeMisc at h
  split at h <;> cases h <;> next hnn => exact congrArg (formatXB 0xF x) (BitVec.eq_of_toNat_eq hnn.symm)

/-- A word is the encoding of the instruction it decodes to: one arm for each op nibble, by the format of its instructions. -/
theorem encode_of_decodeWord {w : Word} {i : Instr} (h : decodeWord w = some i) : encode i = w := by
  unfold decodeWord at h
  split at h
  case h_1 => exact encode_of_decodeZero h
  case h_2 hop | h_3 hop | h_11 hop | h_12 hop => cases h; exact formatA_of_opField hop
  case h_4 hop | h_5 hop | h_7 hop | h_8 hop | h_13 hop => cases h; exact formatXB_of_opField hop
  case h_6 hop | h_10 hop =>
    split at h <;> cases h
    next hn => rw [encode, ← hn, formatXYN_of_opField hop]
  case h_9 hop => rw [encode_of_decodeArith h, formatXYN_of_opField hop]
  case h_14 hop => cases h; exact formatXYN_of_opField hop
  case h_15 hop => rw [encode_of_decodeKey h, formatXB_of_opField hop]
  case h_16 =>
    have hop : (opField w).toNat = 15 := by
      have hlt := (opField w).isLt
      simp only [imp_false] at *
      omega
    rw [encode_of_decodeMisc h, formatXB_of_opField hop]

end Sys2Proof
end

section
/-! The step by what it fetches (20_memory.md R40, R41, 30_encoding.md R56): one equation per outcome of the fetch and the decode. -/

namespace Sys2Proof.Machine

open State

variable {s : State}

/-- The fetch of a word both of whose bytes exist. -/
theorem fetch_in_memory (h : s.pc.toNat + 1 < s.memSize) :
    s.fetch = .ok (wordOfBytes (s.byteAt s.pc.toNat) (s.byteAt (s.pc.toNat + 1))) := by
  rcases fetch_cases s with ⟨_, e⟩ | ⟨hpc, _⟩ | ⟨hpc, _⟩
  · exact e
  · omega
  · omega

/-- The fetch at or past the end of memory. -/
theorem fetch_past_end (h : s.memSize ≤ s.pc.toNat) : s.fetch = .error s.pc.toNat := by
  rcases fetch_cases s with ⟨hpc, _⟩ | ⟨_, e⟩ | ⟨hpc, _⟩
  · omega
  · exact e
  · omega

/-- The fetch at the last byte of memory: the low byte's address is the one that does not exist. -/
theorem fetch_at_last_byte (h : s.pc.toNat + 1 = s.memSize) : s.fetch = .error (s.pc.toNat + 1) := by
  rcases fetch_cases s with ⟨hpc, _⟩ | ⟨hpc, _⟩ | ⟨_, e⟩
  · omega
  · omega
  · exact e

/-- A failed fetch names an address that does not exist. -/
theorem memSize_le_of_fetch_error {a : Nat} (h : s.fetch = .error a) : s.memSize ≤ a := by
  rcases fetch_cases s with ⟨_, e⟩ | ⟨hpc, e⟩ | ⟨hpc, e⟩ <;> cases e.symm.trans h
  · exact hpc
  · exact hpc.ge

/-- PC + 2 of a fetched instruction does not wrap (10_state.md R19). -/
theorem pc_add_two_toNat (h : s.pc.toNat + 1 < s.memSize) : (s.pc + 2).toNat = s.pc.toNat + 2 := by
  have := (memSize_bounds s).2
  rw [BitVec.toNat_add]
  exact Nat.mod_eq_of_lt (by simp; omega)

/-- With nothing pending a step is the spec's Step(). -/
theorem step_of_nothing_pending (h : s.host = []) : step s = stepInstr s := by
  simp only [step, h]

theorem stepInstr_of_halted {r : FaultRecord} (h : s.run = .halted r) : stepInstr s = .next s := by
  simp only [stepInstr, h]

theorem stepInstr_of_fetch_error {a : Nat} (hrun : s.run = .running) (hf : s.fetch = .error a) :
    stepInstr s = .next (s.raise .memoryOverflow none (some a)) := by
  simp only [stepInstr, hrun, hf]

theorem stepInstr_of_invalid {w : Word} (hrun : s.run = .running) (hf : s.fetch = .ok w) (hd : decodeWord w = none) :
    stepInstr s = .next (s.raise .invalidInstruction (some w) none) := by
  simp only [stepInstr, hrun, hf, hd]

theorem stepInstr_of_decode {w : Word} {i : Instr} (hrun : s.run = .running) (hf : s.fetch = .ok w)
    (hd : decodeWord w = some i) : stepInstr s = exec i s := by
  simp only [stepInstr, hrun, hf, hd]

end Sys2Proof.Machine
end

section
/-! The faults of executing instructions and their causes (20_memory.md R33, 60_exceptions.md R95, R96). -/

namespace Sys2Proof.Machine

open State

/-- The causes R95 gives the faults of an executing instruction in a state, each with the fault's name and the info of its record. -/
inductive FaultCause (s : State) : Instr → Fault → Option Nat → Prop
  | operand {i : Instr} (hlen : 0 < operandBytes i) (hend : s.memSize < s.index.toNat + operandBytes i) :
      FaultCause s i .memoryOverflow (some (max s.index.toNat s.memSize))
  | stackFull (nnn : Addr12) (hsp : s.sp = 16) : FaultCause s (.call nnn) .stackOverflow none
  | stackEmpty (hsp : s.sp = 0) : FaultCause s .ret .stackUnderflow none
  | keyIndex {i : Instr} (x : Nibble) (hi : i = .skp x ∨ i = .sknp x) (hx : 16 ≤ (s.getV x).toNat)
      (hpolicy : s.params.keyIndexPolicy = .fault) :
      FaultCause s i .keyIndexOutOfRange (some (s.getV x).toNat)

/-- The input mux answers the fault only for an index above 15 under KEY_INDEX_POLICY = fault (R92). -/
theorem keyAt_eq_none {s : State} {k : Byte} (h : s.keyAt k = none) :
    16 ≤ k.toNat ∧ s.params.keyIndexPolicy = .fault := by
  rcases keyAt_cases s k with ⟨_, e⟩ | ⟨_, _, e⟩ | ⟨hk, hpolicy, _⟩
  · exact nomatch e.symm.trans h
  · exact nomatch e.symm.trans h
  · exact ⟨hk, hpolicy⟩

/-- SKP and SKNP take their fault only for its cause, and leave RUN as it was when they complete. -/
theorem keySkip_faults_for_cause_or_keeps_run {i : Instr} {x : Nibble} {s t : State} (hi : i = .skp x ∨ i = .sknp x)
    (h : exec i s = .next t) :
    (∃ f info, FaultCause s i f info ∧ t = s.raiseBy i f info) ∨ t.run = s.run := by
  cases hk : s.keyAt (s.getV x) with
  | some pressed =>
    refine .inr ?_
    rcases hi with rfl | rfl <;> simp only [exec, execSkp, execSknp, hk] at h <;> cases h <;> rfl
  | none =>
    obtain ⟨hx, hpolicy⟩ := keyAt_eq_none hk
    refine .inl ⟨_, _, .keyIndex x hi hx hpolicy, ?_⟩
    rcases hi with rfl | rfl <;> simp only [exec, execSkp, execSknp, hk] at h <;> cases h <;> rfl

/-- An instruction takes a fault only for its cause, and leaves RUN as it was when it completes. -/
theorem exec_faults_for_cause_or_keeps_run {i : Instr} {s t : State} (h : exec i s = .next t) :
    (∃ f info, FaultCause s i f info ∧ t = s.raiseBy i f info) ∨ t.run = s.run := by
  cases i with
  | ret =>
    rcases execRet_cases s with ⟨_, e⟩ | ⟨hsp, e⟩ <;> cases e.symm.trans h
    · exact .inr rfl
    · exact .inl ⟨_, _, .stackEmpty hsp, rfl⟩
  | call nnn =>
    rcases execCall_cases s nnn with ⟨_, e⟩ | ⟨hsp, e⟩ <;> cases e.symm.trans h
    · exact .inr rfl
    · exact .inl ⟨_, _, .stackFull nnn hsp, rfl⟩
  | drw x y n =>
    rcases execDrw_cases s x y n with ⟨_, e⟩ | ⟨hend, hlen, e⟩ <;> cases e.symm.trans h
    · exact .inr rfl
    · exact .inl ⟨_, _, .operand hlen hend, rfl⟩
  | ldBVx x =>
    rcases execLdBVx_cases s x with ⟨_, e⟩ | ⟨hend, e⟩ <;> cases e.symm.trans h
    · exact .inr rfl
    · exact .inl ⟨_, _, .operand (Nat.succ_pos _) hend, rfl⟩
  | ldMemVx x =>
    rcases execLdMemVx_cases s x with ⟨_, e⟩ | ⟨hend, e⟩ <;> cases e.symm.trans h
    · exact .inr rfl
    · exact .inl ⟨_, _, .operand (Nat.succ_pos _) hend, rfl⟩
  | ldVxMem x =>
    rcases execLdVxMem_cases s x with ⟨_, e⟩ | ⟨hend, e⟩ <;> cases e.symm.trans h
    · exact .inr rfl
    · exact .inl ⟨_, _, .operand (Nat.succ_pos _) hend, rfl⟩
  | skp x => exact keySkip_faults_for_cause_or_keeps_run (.inl rfl) h
  | sknp x => exact keySkip_faults_for_cause_or_keeps_run (.inr rfl) h
  | _ => exact .inr ((exec_writesOnlyListed h).run rfl)

end Sys2Proof.Machine
end

section
/-! Memory across the instructions (20_memory.md R32, R35, R45, R47): every instruction keeps the canonical form, and what FX33 and FX55
store is what is read back. -/

namespace Sys2Proof.Machine

open State

/-- The canonical form looks at the parameters and memory alone. -/
theorem memOk_congr {s t : State} (hp : t.params = s.params) (hm : t.mem = s.mem) : t.memOk ↔ s.memOk := by
  simp only [memOk, memSize, hp, hm]

/-- The bytes FX33 or FX55 stores from I upward: the decimal digits of V[x], or V0 to V[x] (R85, R86). -/
def storedBytes (s : State) : Instr → List Byte
  | .ldBVx x => bcdDigits (s.getV x)
  | .ldMemVx x => s.regsUpTo x
  | _ => []

theorem length_storedBytes {i : Instr} (hi : writesMemory i = true) (s : State) :
    (storedBytes s i).length = operandBytes i := by
  cases i with
  | ldBVx x => rfl
  | ldMemVx x => exact length_regsUpTo s x
  | _ => cases hi

/-- The k-th byte FX33 or FX55 stores. -/
theorem storedBytes_get {i : Instr} (hi : writesMemory i = true) (s : State) (k : Nat) (hk : k < (storedBytes s i).length) :
    (storedBytes s i)[k] = s.storedByte i k := by
  cases i with
  | ldBVx x =>
    have hk3 : k < 3 := hk
    interval_cases k <;> rfl
  | ldMemVx x =>
    have hk16 : k < 16 := by
      have hlen : k < x.toNat + 1 := (length_regsUpTo s x) ▸ hk
      omega
    have hz : (BitVec.ofNat 4 k).toNat = k := by simp [Nat.mod_eq_of_lt hk16]
    have e := regsUpTo_get s x (BitVec.ofNat 4 k) (by rw [hz]; exact hk)
    simpa only [hz, storedBytes, storedByte] using e
  | _ => cases hi

/-- The byte at any address once the bytes of FX33 or FX55 stand in memory. -/
theorem byteAt_setBytes_storedBytes {i : Instr} {s : State} (hi : writesMemory i = true) (hs : s.memOk)
    (hend : s.index.toNat + operandBytes i ≤ s.memSize) (a : Nat) :
    (s.setBytes s.index.toNat (storedBytes s i)).byteAt a = s.byteOnceStored i a := by
  have hlen := length_storedBytes hi s
  unfold byteOnceStored
  split
  · next h =>
    have hk : a - s.index.toNat < (storedBytes s i).length := by omega
    have e := byteAt_setBytes_get s hs s.index.toNat (a - s.index.toNat) (storedBytes s i) hk (by omega)
    rwa [Nat.add_sub_cancel' h.1, storedBytes_get hi s _ hk] at e
  · exact byteAt_setBytes_other s _ _ _ (by omega)

/-- Everything FX33 and FX55 can do: with their operand in memory they store their bytes and pass on, else they take their fault. -/
theorem exec_stores_or_faults {i : Instr} {s t : State} (hi : writesMemory i = true) (h : exec i s = .next t) :
    (s.index.toNat + operandBytes i ≤ s.memSize ∧ t.mem = (s.setBytes s.index.toNat (storedBytes s i)).mem ∧
      t.pc = s.pc + 2) ∨
    (s.memSize < s.index.toNat + operandBytes i ∧
      t = s.raiseBy i .memoryOverflow (some (max s.index.toNat s.memSize))) := by
  cases i with
  | ldBVx x =>
    rcases execLdBVx_cases s x with ⟨hend, e⟩ | ⟨hend, e⟩ <;> cases e.symm.trans h
    · exact .inl ⟨hend, rfl, rfl⟩
    · exact .inr ⟨hend, rfl⟩
  | ldMemVx x =>
    rcases execLdMemVx_cases s x with ⟨hend, e⟩ | ⟨hend, e⟩ <;> cases e.symm.trans h
    · exact .inl ⟨hend, rfl, rfl⟩
    · exact .inr ⟨hend, rfl⟩
  | _ => cases hi

/-- Executing any instruction keeps memory in its canonical form: FX33 and FX55 store only bytes that exist, and a fault and every
other instruction leave memory as it was. -/
theorem exec_keeps_memOk {i : Instr} {s t : State} (hs : s.memOk) (h : exec i s = .next t) : t.memOk := by
  have w := exec_writesOnlyListed h
  cases hi : writesMemory i with
  | false => exact (memOk_congr w.params (w.mem hi)).2 hs
  | true =>
    rcases exec_stores_or_faults hi h with ⟨hend, hm, _⟩ | ⟨_, rfl⟩
    · refine (memOk_congr (s := s.setBytes _ _) w.params hm).2 (wf_setBytes s hs _ _ ?_)
      rwa [length_storedBytes hi s]
    · exact hs

/-! ## Placing a word (log entry 9) -/

/-- The 16 bits of a table word are the word itself. -/
@[simp] theorem tableWord_toNat (w : Word) : tableWord 16 w.toNat = w := by
  simp [tableWord, Nat.mod_eq_of_lt w.isLt]

/-- Where a word is placed, both its bytes exist. -/
theorem placeAt_in_memory (s : State) : (placeAt s).toNat + 1 < s.memSize := by
  unfold placeAt
  split
  · next h => exact h
  · have := (memSize_bounds s).1
    simp [Config.progBase]
    omega

/-- A placed word is the next one fetched. -/
theorem fetch_placeWord {s : State} (hs : s.memOk) (w : Word) : (placeWord s w).fetch = .ok w := by
  have hat := placeAt_in_memory s
  have hbyte := byteAt_setBytes_get s hs (placeAt s).toNat
  have hhigh : (placeWord s w).byteAt (placeAt s).toNat = highByte w := hbyte 0 [highByte w, lowByte w] Nat.two_pos hat
  have hlow : (placeWord s w).byteAt ((placeAt s).toNat + 1) = lowByte w :=
    hbyte 1 [highByte w, lowByte w] Nat.one_lt_two hat
  have e : (placeWord s w).fetch = .ok (wordOfBytes ((placeWord s w).byteAt (placeAt s).toNat)
      ((placeWord s w).byteAt ((placeAt s).toNat + 1))) := fetch_in_memory (s := placeWord s w) hat
  rw [e, hhigh, hlow, wordOfBytes_bytes]

end Sys2Proof.Machine
end

section
/-! The statements about memory and the fetch (20_memory.md). -/

open Sys2Proof Sys2Proof.Machine

/-- Settles O10: the faults of the fetch and the decode are by their equations, and an instruction's fault is for its cause, on the word
that it encodes to. -/
theorem faultsAreTakenOnlyForTheirCause : Obligations.FaultsAreTakenOnlyForTheirCause := by
  intro s t r hrun h ht
  rcases stepInstr_cases s with ⟨_, hr, _⟩ | ⟨_, a, hf, e⟩ | ⟨_, w, hf, hd, e⟩ | ⟨_, w, i, hf, hd, e⟩
  · exact nomatch hrun.symm.trans hr
  · cases e.symm.trans h
    cases ht
    exact ⟨nofun, fun _ => .inl ⟨a, hf, memSize_le_of_fetch_error hf, rfl, rfl⟩, nofun, nofun, nofun⟩
  · cases e.symm.trans h
    cases ht
    exact ⟨fun _ => ⟨w, hf, hd, rfl, rfl⟩, nofun, nofun, nofun, nofun⟩
  · cases encode_of_decodeWord hd
    rcases exec_faults_for_cause_or_keeps_run (e.symm.trans h) with ⟨f, info, hcause, rfl⟩ | hkeep
    · cases ht
      cases hcause with
      | operand hlen hend => exact ⟨nofun, fun _ => .inr ⟨i, hf, hlen, hend, rfl, rfl⟩, nofun, nofun, nofun⟩
      | stackFull nnn hsp => exact ⟨nofun, nofun, fun _ => ⟨nnn, hf, hsp, rfl, rfl⟩, nofun, nofun⟩
      | stackEmpty hsp => exact ⟨nofun, nofun, nofun, fun _ => ⟨hf, hsp, rfl, rfl⟩, nofun⟩
      | keyIndex x hi hx hpolicy =>
        exact ⟨nofun, nofun, nofun, nofun, fun _ => ⟨i, x, hi, hf, hx, hpolicy, rfl, rfl⟩⟩
    · exact nomatch ht.symm.trans (hkeep.trans hrun)

/-- Settles O17: a fault and a frame's end leave memory, Initialize loads it in canonical form, and every instruction keeps the form. -/
theorem stepKeepsMemoryCanonical : Obligations.StepKeepsMemoryCanonical := by
  intro s t
  refine step_keeps (P := State.memOk) ?_ ?_ ?_ ?_
  · exact fun _ _ hs => hs
  · exact fun s t hs => stepInstr_keeps (fun _ _ _ => hs) (fun _ _ _ _ _ h => exec_keeps_memOk hs h) hs
  · exact fun k s hs => (memOk_congr (State.endFrame_params k s) (State.endFrame_mem k s)).2 hs
  · exact fun rom s _ => State.initRom_wf rom s

/-- Settles O7: the step by what it fetches, at each place PC can be. -/
theorem stepTakesItsFaultsInOrder : Obligations.StepTakesItsFaultsInOrder := by
  intro s hhost
  rw [step_of_nothing_pending hhost]
  refine ⟨fun r hr => stepInstr_of_halted hr, fun hrun hpc => ?_, fun hrun hpc => ?_, fun hrun hpc w hw hd => ?_⟩
  · rw [stepInstr_of_fetch_error hrun (fetch_past_end hpc)]
    simp [State.raise]
  · rw [stepInstr_of_fetch_error hrun (fetch_at_last_byte hpc)]
    simp [State.raise, BitVec.ofNat_add]
  · subst hw
    exact stepInstr_of_invalid hrun (fetch_in_memory hpc) hd

/-- Settles O16: once the bytes stand in memory every address reads as the statement says, the two after the instruction among them. -/
theorem storedBytesAreFetchedNext : Obligations.StoredBytesAreFetchedNext := by
  intro i s hi hs hend hpc
  obtain ⟨t, e⟩ := exec_answers_next s i
  refine ⟨t, e, ?_⟩
  rcases exec_stores_or_faults hi e with ⟨_, hm, htpc⟩ | ⟨hlt, _⟩
  · have hbyte : ∀ a, t.byteAt a = s.byteOnceStored i a := fun a =>
      (sameMemory_of_mem (s := s.setBytes _ _) (exec_writesOnlyListed e).params hm a).trans
        (byteAt_setBytes_storedBytes hi hs hend a)
    have hnext : t.pc.toNat = s.pc.toNat + 2 := by rw [htpc, pc_add_two_toNat (by omega)]
    rw [fetch_in_memory (by rw [hnext, exec_memSize e]; exact hpc), hbyte, hbyte, hnext]
  · omega

/-- Settles O6: the word at PC is fetched, decoded and executed, and neither the fetch nor RUN looks at what is pending. -/
theorem stepRunsTheDecodedInstruction : Obligations.StepRunsTheDecodedInstruction := by
  intro s i hrun hpc hd
  refine ⟨fun hhost => ?_, fun n keys rest hhost => ?_⟩
  · rw [step_of_nothing_pending hhost]
    exact stepInstr_of_decode hrun (fetch_in_memory hpc) hd
  · simp only [step, hhost]
    exact stepInstr_of_decode hrun (fetch_in_memory hpc) hd

/-- Settles O30: the placed word is fetched, and placing it leaves the machine running with nothing pending. -/
theorem placedWordRunsNext : Obligations.PlacedWordRunsNext := by
  intro s w i hs hd
  rw [State.withFetchWord, tableWord_toNat, step_of_nothing_pending rfl]
  exact stepInstr_of_decode rfl (fetch_placeWord hs w) hd
end

section
/-! The decoder on encoded words and on invalid ones (30_encoding.md R51, R53, R54): the fields of an encoded word lead the decoder back
to its instruction, each decoder of an op nibble refuses exactly its group of R54, and the words of a table row are decoded. -/

namespace Sys2Proof

/-! ## Encoded words decode (R51, R53) -/

/-- The word of an instruction decodes to it: the op nibble selects the arm, and then n or nn selects the instruction. -/
@[simp] theorem decodeWord_encode (i : Instr) : decodeWord (encode i) = some i := by
  cases i
  case cls | ret => rfl
  case jp | call | ldI | jpV0 | seImm | sneImm | ldImm | addImm | rnd | seReg | sneReg | drw => simp [encode, decodeWord]
  case ldReg | or | and | xor | addReg | sub | shr | subn | shl => simp [encode, decodeWord, decodeArith]
  case skp | sknp => simp [encode, decodeWord, decodeKey]
  case ldVxDt | ldVxK | ldDtVx | ldStVx | addIVx | ldFVx | ldBVx | ldMemVx | ldVxMem =>
    simp [encode, decodeWord, decodeMisc]

/-- Bytes decode as the word they make, and the decoder reads nothing after them (R40, R48). -/
theorem decodeBytes_of_decodeWord {w : Word} {i : Instr} (rest : List Byte) (h : decodeWord w = some i) :
    decodeBytes (highByte w :: lowByte w :: rest) = .ok (i, rest) := by
  simp [decodeBytes, h]

/-! ## What each decoder of an op nibble refuses (R54) -/

theorem decodeZero_eq_none_iff (w : Word) : decodeZero w = none ↔ w ≠ 0x00E0 ∧ w ≠ 0x00EE := by
  unfold decodeZero
  split <;> simp_all

theorem decodeArith_eq_none_iff (x y n : Nibble) :
    decodeArith x y n = none ↔ n ∈ [0x8, 0x9, 0xA, 0xB, 0xC, 0xD, 0xF] := by
  have hlt := n.isLt
  simp only [List.mem_cons, List.not_mem_nil, or_false, ← BitVec.toNat_inj]
  unfold decodeArith
  split
  case h_10 =>
    refine iff_of_true rfl ?_
    simp only [imp_false] at *
    bv_omega
  all_goals simp [*]

theorem decodeKey_eq_none_iff (x : Nibble) (nn : Byte) : decodeKey x nn = none ↔ nn ∉ [0x9E, 0xA1] := by
  simp only [List.mem_cons, List.not_mem_nil, or_false, ← BitVec.toNat_inj]
  unfold decodeKey
  split <;> simp_all

theorem decodeMisc_eq_none_iff (x : Nibble) (nn : Byte) :
    decodeMisc x nn = none ↔ nn ∉ [0x07, 0x0A, 0x15, 0x18, 0x1E, 0x29, 0x33, 0x55, 0x65] := by
  simp only [List.mem_cons, List.not_mem_nil, or_false, ← BitVec.toNat_inj]
  unfold decodeMisc
  split <;> simp_all

/-- Op nibble 0 and 5, 8, 9, E and F are those whose decoder refuses words, one group of R54 each. -/
theorem decodeWord_eq_none_iff (w : Word) : decodeWord w = none ↔
    (opField w = 0x0 ∧ w ≠ 0x00E0 ∧ w ≠ 0x00EE) ∨
    (opField w = 0x5 ∧ nField w ≠ 0) ∨
    (opField w = 0x8 ∧ nField w ∈ [0x8, 0x9, 0xA, 0xB, 0xC, 0xD, 0xF]) ∨
    (opField w = 0x9 ∧ nField w ≠ 0) ∨
    (opField w = 0xE ∧ nnField w ∉ [0x9E, 0xA1]) ∨
    (opField w = 0xF ∧ nnField w ∉ [0x07, 0x0A, 0x15, 0x18, 0x1E, 0x29, 0x33, 0x55, 0x65]) := by
  have hlt := (opField w).isLt
  rw [decodeWord]
  simp only [← BitVec.toNat_inj (x := opField w)]
  split
  case h_1 hop => simp [hop, decodeZero_eq_none_iff]
  case h_6 hop | h_10 hop => simp [hop]
  case h_9 hop => simp [hop, decodeArith_eq_none_iff]
  case h_15 hop => simp [hop, decodeKey_eq_none_iff]
  case h_16 =>
    have hop : (opField w).toNat = 15 := by
      simp only [imp_false] at *
      omega
    simp [hop, decodeMisc_eq_none_iff]
  case h_2 hop | h_3 hop | h_4 hop | h_5 hop | h_7 hop | h_8 hop | h_11 hop | h_12 hop | h_13 hop | h_14 hop => simp [hop]

/-! ## Words a row of the opcode table selects (R52) -/

namespace OpcodeRow

variable {r : OpcodeRow} {w : Word}

theorem selects_iff : r.selects w = true ↔ w &&& r.mask = r.bits := beq_iff_eq

theorem eq_of_selects_fixedWords (hr : r ∈ fixedWords) (h : r.selects w = true) : w = r.bits := by
  have hmask : ∀ r ∈ fixedWords, r.mask = BitVec.allOnes 16 := by decide
  rwa [selects_iff, hmask r hr, BitVec.and_allOnes] at h

theorem opField_of_selects_byOp (hr : r ∈ byOp) (h : r.selects w = true) : opField w = opField r.bits := by
  have hmask : ∀ r ∈ byOp, r.mask = 0xF000 := by decide
  rw [selects_iff, hmask r hr, and_maskOp] at h
  rw [← h, opField_formatA]

theorem op_n_of_selects_byOpAndN (hr : r ∈ byOpAndN) (h : r.selects w = true) :
    opField w = opField r.bits ∧ nField w = nField r.bits := by
  have hmask : ∀ r ∈ byOpAndN, r.mask = 0xF00F := by decide
  rw [selects_iff, hmask r hr, and_maskOpN] at h
  simp [← h]

theorem op_nn_of_selects_byOpAndNN (hr : r ∈ byOpAndNN) (h : r.selects w = true) :
    opField w = opField r.bits ∧ nnField w = nnField r.bits := by
  have hmask : ∀ r ∈ byOpAndNN, r.mask = 0xF0FF := by decide
  rw [selects_iff, hmask r hr, and_maskOpNN] at h
  simp [← h]

end OpcodeRow

/-! ## The words of a row decode (R52, R53) -/

/-- The decoder looks at the op nibble, and then only at the fields that decide it: two words that agree on these are both refused or
both accepted. -/
theorem decodeWord_eq_none_congr {w w' : Word} (hop : opField w = opField w') (hz : opField w' = 0x0 → w = w')
    (hn : opField w' ∈ [0x5, 0x8, 0x9] → nField w = nField w') (hnn : opField w' ∈ [0xE, 0xF] → nnField w = nnField w') :
    decodeWord w = none ↔ decodeWord w' = none := by
  rw [decodeWord_eq_none_iff, decodeWord_eq_none_iff, hop]
  refine or_congr ?_ (or_congr ?_ (or_congr ?_ (or_congr ?_ (or_congr ?_ ?_)))) <;> refine and_congr_right fun h => ?_
  · rw [hz h]
  · rw [hn (by simp [h])]
  · rw [hn (by simp [h])]
  · rw [hn (by simp [h])]
  · rw [hnn (by simp [h])]
  · rw [hnn (by simp [h])]

/-- A word that a row selects is refused exactly when the row's own bits are: the row fixes every field that decides. -/
theorem OpcodeRow.decodeWord_eq_none_iff_of_selects {r : OpcodeRow} {w : Word} (hr : r ∈ table) (h : r.selects w = true) :
    decodeWord w = none ↔ decodeWord r.bits = none := by
  simp only [table, List.mem_append] at hr
  rcases hr with ((hr | hr) | hr) | hr
  · rw [eq_of_selects_fixedWords hr h]
  · have hops : ∀ r ∈ byOp, opField r.bits ≠ 0x0 ∧ opField r.bits ∉ [0x5, 0x8, 0x9] ∧ opField r.bits ∉ [0xE, 0xF] := by
      decide
    obtain ⟨hz, hn, hnn⟩ := hops r hr
    exact decodeWord_eq_none_congr (opField_of_selects_byOp hr h) (absurd · hz) (absurd · hn) (absurd · hnn)
  · have hops : ∀ r ∈ byOpAndN, opField r.bits ≠ 0x0 ∧ opField r.bits ∉ [0xE, 0xF] := by decide
    obtain ⟨hz, hnn⟩ := hops r hr
    obtain ⟨hop, hn⟩ := op_n_of_selects_byOpAndN hr h
    exact decodeWord_eq_none_congr hop (absurd · hz) (fun _ => hn) (absurd · hnn)
  · have hops : ∀ r ∈ byOpAndNN, opField r.bits ≠ 0x0 ∧ opField r.bits ∉ [0x5, 0x8, 0x9] := by decide
    obtain ⟨hz, hn⟩ := hops r hr
    obtain ⟨hop, hnn⟩ := op_nn_of_selects_byOpAndNN hr h
    exact decodeWord_eq_none_congr hop (absurd · hz) (absurd · hn) (fun _ => hnn)

theorem decodeWord_isSome_of_wellFormedWord {w : Word} (h : wellFormedWord w = true) : (decodeWord w).isSome = true := by
  have hbits : ∀ r ∈ OpcodeRow.table, decodeWord r.bits ≠ none := by decide
  obtain ⟨r, hr, hsel⟩ := List.any_eq_true.1 h
  rw [Option.isSome_iff_ne_none]
  exact fun hw => hbits r hr ((OpcodeRow.decodeWord_eq_none_iff_of_selects hr hsel).1 hw)

open Laws in
/-- The word of every instruction is one that its row selects. -/
theorem wellFormedWord_encode : ∀ i : Instr, wellFormedWord (encode i) = true
  | .cls => EncodesInTable.cls
  | .ret => EncodesInTable.ret
  | .jp nnn => EncodesInTable.jp nnn
  | .call nnn => EncodesInTable.call nnn
  | .seImm x nn => EncodesInTable.seImm x nn
  | .sneImm x nn => EncodesInTable.sneImm x nn
  | .seReg x y => EncodesInTable.seReg x y
  | .ldImm x nn => EncodesInTable.ldImm x nn
  | .addImm x nn => EncodesInTable.addImm x nn
  | .ldReg x y => EncodesInTable.ldReg x y
  | .or x y => EncodesInTable.or x y
  | .and x y => EncodesInTable.and x y
  | .xor x y => EncodesInTable.xor x y
  | .addReg x y => EncodesInTable.addReg x y
  | .sub x y => EncodesInTable.sub x y
  | .shr x y => EncodesInTable.shr x y
  | .subn x y => EncodesInTable.subn x y
  | .shl x y => EncodesInTable.shl x y
  | .sneReg x y => EncodesInTable.sneReg x y
  | .ldI nnn => EncodesInTable.ldI nnn
  | .jpV0 nnn => EncodesInTable.jpV0 nnn
  | .rnd x nn => EncodesInTable.rnd x nn
  | .drw x y n => EncodesInTable.drw x y n
  | .skp x => EncodesInTable.skp x
  | .sknp x => EncodesInTable.sknp x
  | .ldVxDt x => EncodesInTable.ldVxDt x
  | .ldVxK x => EncodesInTable.ldVxK x
  | .ldDtVx x => EncodesInTable.ldDtVx x
  | .ldStVx x => EncodesInTable.ldStVx x
  | .addIVx x => EncodesInTable.addIVx x
  | .ldFVx x => EncodesInTable.ldFVx x
  | .ldBVx x => EncodesInTable.ldBVx x
  | .ldMemVx x => EncodesInTable.ldMemVx x
  | .ldVxMem x => EncodesInTable.ldVxMem x

end Sys2Proof
end

section
/-! The statements about the encoding (30_encoding.md). -/

open Sys2Proof

/-- Settles O1: an encoded word leads back to its instruction, and the two bytes of a word make that word again. -/
theorem decodeOfEncodeIsTheInstruction : Obligations.DecodeOfEncodeIsTheInstruction :=
  fun i rest => ⟨decodeWord_encode i, decodeBytes_of_decodeWord rest (decodeWord_encode i)⟩

/-- Settles O2: by the format of each decoded word. -/
theorem encodeOfDecodeIsTheWord : Obligations.EncodeOfDecodeIsTheWord :=
  fun _ _ => encode_of_decodeWord

/-- Settles O3: a decoded word is the encoding of what it decodes to, and each row's fixed fields are ones the decoder accepts. -/
theorem decoderAcceptsExactlyTheTablesWords : Obligations.DecoderAcceptsExactlyTheTablesWords := by
  intro w
  rw [Bool.eq_iff_iff]
  constructor
  · intro h
    obtain ⟨i, hi⟩ := Option.isSome_iff_exists.1 h
    rw [← encode_of_decodeWord hi]
    exact wellFormedWord_encode i
  · exact decodeWord_isSome_of_wellFormedWord

/-- Settles O4: the decoder's refusals, op nibble by op nibble. -/
theorem invalidWordsAreTheSixGroups : Obligations.InvalidWordsAreTheSixGroups :=
  decodeWord_eq_none_iff

/-- Settles O5: fourteen fixed words, each decoded. -/
theorem writtenOutWordsDecode : Obligations.WrittenOutWordsDecode := by
  unfold Obligations.WrittenOutWordsDecode
  decide
end

section
/-! What DXYN does where its sprite lies in memory (40_display.md R62): the picture the model draws is the one of `State.spriteAt`, VF
reports its collisions, and a second drawing of it meets the same sprite. -/

namespace Sys2Proof.Machine

open State

variable (x y n : Nibble) (s : State)

/-- The bit of the sprite read from memory at I, drawn from V[x] mod 64 and V[y] mod 32, is the one the statements speak of. -/
theorem spriteBit_bytesAt (r c : Nat) :
    spriteBit ((s.getV y).toNat % 32) ((s.getV x).toNat % 64) (s.bytesAt s.index.toNat n.toNat) r c = s.spriteAt x y n r c := by
  unfold spriteBit spriteAt
  by_cases hrow : (s.getV y).toNat % 32 ≤ r
  · by_cases hlen : r - (s.getV y).toNat % 32 < n.toNat
    · have hend : r < (s.getV y).toNat % 32 + n.toNat := by omega
      rw [List.getElem?_eq_getElem (by simpa using hlen), bytesAt_get]
      simp [rowBit, hrow, hend]
    · have hend : ¬ r < (s.getV y).toNat % 32 + n.toNat := by omega
      rw [List.getElem?_eq_none (by simpa using hlen)]
      simp [hend]
  · simp [hrow]

/-- Drawing inverts exactly the pixels where the sprite has a 1. -/
theorem pixel_drawAtI {r c : Nat} (hr : r < 32) (hc : c < 64) :
    (drawAtI x y n s).fb.pixel r c = (s.fb.pixel r c ^^ s.spriteAt x y n r c) := by
  rw [← spriteBit_bytesAt]
  exact (drawSprite_spec ..).1 r c hr hc

/-- Drawing leaves every byte of memory as it was. -/
theorem sameMemory_drawAtI : sameMemory s (drawAtI x y n s) := sameMemory_of_mem rfl rfl

/-- The engine's collision flag for the sprite at I. -/
theorem drawSprite_coll_iff_collides :
    (drawSprite s.fb ((s.getV y).toNat % 32) ((s.getV x).toNat % 64) (s.bytesAt s.index.toNat n.toNat)).coll = true ↔
      s.collides x y n := by
  rw [(drawSprite_spec ..).2]
  simp only [spriteBit_bytesAt, collides]

variable {x y n s}

theorem getV_drawAtI_flag_of_collides (h : s.collides x y n) : (drawAtI x y n s).getV 0xF = 1 := by
  simp [drawAtI, getV_setFlag, (drawSprite_coll_iff_collides x y n s).2 h]

theorem getV_drawAtI_flag_of_not_collides (h : ¬ s.collides x y n) : (drawAtI x y n s).getV 0xF = 0 := by
  rw [← drawSprite_coll_iff_collides] at h
  simp [drawAtI, getV_setFlag, h]

/-- Drawing writes no register but VF. -/
theorem getV_drawAtI_other {z : Nibble} (h : z ≠ 0xF) : (drawAtI x y n s).getV z = s.getV z :=
  (getV_setFlag (s.setFb _) z _).trans (if_neg h)

/-- DXYN completes where every byte of its sprite exists, and where it has none. -/
theorem exec_drw_in_memory (h : s.index.toNat + n.toNat ≤ s.memSize ∨ n.toNat = 0) :
    exec (.drw x y n) s = .next (drawAtI x y n s) := by
  rcases execDrw_cases s x y n with ⟨_, e⟩ | ⟨hend, hlen, _⟩
  · exact e
  · omega

/-- DXYN takes MemoryOverflow where some byte of its sprite does not exist. -/
theorem exec_drw_past_memory (hlen : 0 < n.toNat) (hend : s.memSize < s.index.toNat + n.toNat) :
    exec (.drw x y n) s = .next (s.raiseBy (.drw x y n) .memoryOverflow (some (max s.index.toNat s.memSize))) := by
  rcases execDrw_cases s x y n with ⟨h, _⟩ | ⟨_, _, e⟩
  · omega
  · exact e

/-! ## A second drawing -/

/-- Once drawn, the sprite is met again at the same place: its position is not held in VF, and memory and I are as they were. -/
theorem spriteAt_drawAtI (hx : x ≠ 0xF) (hy : y ≠ 0xF) (r c : Nat) :
    (drawAtI x y n s).spriteAt x y n r c = s.spriteAt x y n r c := by
  have hindex : (drawAtI x y n s).index = s.index := rfl
  simp only [spriteAt, getV_drawAtI_other hx, getV_drawAtI_other hy, sameMemory_drawAtI x y n s _, hindex]

/-- Inverting the same pixels twice restores the picture. -/
theorem drawAtI_twice_fb (hx : x ≠ 0xF) (hy : y ≠ 0xF) : (drawAtI x y n (drawAtI x y n s)).fb = s.fb := by
  refine Framebuffer.ext_pixel fun r c hr hc => ?_
  rw [pixel_drawAtI x y n _ hr hc, spriteAt_drawAtI hx hy, pixel_drawAtI x y n s hr hc]
  rw [Bool.xor_assoc, Bool.xor_self, Bool.xor_false]

/-- The second drawing collides exactly where the first has turned a pixel from 0 to 1. -/
theorem collides_drawAtI_iff (hx : x ≠ 0xF) (hy : y ≠ 0xF) :
    (drawAtI x y n s).collides x y n ↔
      ∃ r c, r < 32 ∧ c < 64 ∧ s.spriteAt x y n r c = true ∧ s.fb.pixel r c = false := by
  unfold collides
  refine exists_congr fun r => exists_congr fun c => and_congr_right fun hr => and_congr_right fun hc => ?_
  rw [spriteAt_drawAtI hx hy, pixel_drawAtI x y n s hr hc]
  refine and_congr_right fun hbit => ?_
  simp [hbit]

end Sys2Proof.Machine
end

section
/-! The statements about the display (40_display.md). -/

open Sys2Proof Sys2Proof.Machine

/-- Settles O32: the operand at I exists or it does not, and where it does the drawing is the one of the sprite at I. -/
theorem drwXorsTheClippedSprite : Obligations.DrwXorsTheClippedSprite := by
  intro x y n s
  have hzero : n = 0 ↔ n.toNat = 0 := BitVec.toNat_inj.symm
  refine ⟨decodeWord_encode (.drw x y n), fun hin => ?_, fun hn hend => ?_⟩
  · rw [hzero] at hin
    have hoperand : s.index.toNat + n.toNat ≤ s.memSize ∨ n.toNat = 0 := by omega
    refine ⟨drawAtI x y n s, exec_drw_in_memory hoperand, fun r c hr hc => pixel_drawAtI x y n s hr hc,
      getV_drawAtI_flag_of_collides, getV_drawAtI_flag_of_not_collides, fun z hz => ?_, rfl, rfl, sameMemory_drawAtI x y n s⟩
    exact getV_drawAtI_other (by simpa using hz)
  · have hlen : 0 < n.toNat := Nat.pos_of_ne_zero (hn ∘ hzero.2)
    exact exec_drw_past_memory hlen (by omega)

/-- Settles O33: the second drawing meets the same sprite, so it inverts the same pixels, and collides where the first has set one. -/
theorem drawingTwiceRestoresThePicture : Obligations.DrawingTwiceRestoresThePicture := by
  intro x y n s hx hy hend
  refine ⟨drawAtI x y n s, drawAtI x y n (drawAtI x y n s), exec_drw_in_memory (.inl hend), exec_drw_in_memory (.inl hend),
    drawAtI_twice_fb hx hy, fun hset => ?_, fun hall => ?_⟩
  · exact getV_drawAtI_flag_of_collides ((collides_drawAtI_iff hx hy).2 hset)
  · refine getV_drawAtI_flag_of_not_collides fun hcoll => ?_
    obtain ⟨r, c, hr, hc, hbit, hpix⟩ := (collides_drawAtI_iff hx hy).1 hcoll
    exact absurd ((hall r c hr hc hbit).symm.trans hpix) (by decide)

/-- Settles O31: the cleared surface has no pixel at 1, and only FB and PC are written. -/
theorem clsClearsEveryPixel : Obligations.ClsClearsEveryPixel := by
  refine ⟨decodeWord_encode .cls, fun s => ⟨(s.setFb Framebuffer.clear).advance 2, rfl, ?_, rfl, sameMemory_of_mem rfl rfl⟩⟩
  exact Framebuffer.pixel_clear
end

section
/-! What a jump and a skip do (41_control_flow.md R64, R66 to R70): PC is set, and nothing else differs. -/

namespace Sys2Proof.Machine

open State

variable {s : State}

/-- Setting PC is all an unconditional jump does (R64, R66). -/
theorem onlyPc_setPc (w : Word) : onlyPc s (s.setPc w) := ⟨rfl, sameMemory_of_mem rfl rfl⟩

/-- An instruction that ends in `skipIf` skips exactly when the condition its Bool stands for holds (10_state.md R18). -/
theorem skipsWhen_of_skipIf {i : Instr} {b : Bool} {c : Prop} (hb : b = true ↔ c) (h : exec i s = .next (s.skipIf b)) :
    skipsWhen i s c := by
  refine ⟨s.skipIf b, h, fun hc => ?_, fun hc => ?_, onlyPc_setPc _⟩
  · simp [skipIf_eq, hb.2 hc]
  · simp [skipIf_eq, mt hb.1 hc]

end Sys2Proof.Machine
end

section
/-! The statements about control transfer (41_control_flow.md). -/

open Sys2Proof Sys2Proof.Machine

/-- Settles O36: a CALL with room on the stack writes the entry at SP and counts it; with 16 entries held it takes its fault. -/
theorem callPushesTheNextAddress : Obligations.CallPushesTheNextAddress := by
  intro nnn s
  refine ⟨decodeWord_encode (.call nnn), fun j hj => ?_, fun h16 => ?_⟩
  · have hsp : s.sp.val = j.val := congrArg Fin.val hj
    rcases execCall_cases s nnn with ⟨_, e⟩ | ⟨h16, _⟩
    · refine ⟨_, e, ?_, fun k hk => ?_, Fin.ext ?_, zextAddr_toNat nnn, rfl, sameMemory_of_mem rfl rfl⟩
      · simp [hsp]
      · have hne : s.sp.val ≠ k.val := fun hkj => hk (Fin.ext (hkj.symm.trans hsp))
        simp [hne]
      · simp [hsp]
    · simp [h16] at hsp
      omega
  · rcases execCall_cases s nnn with ⟨hlt, _⟩ | ⟨_, e⟩
    · simp [h16] at hlt
    · exact e

/-- Settles O38: a byte and an address field are too small for their 16-bit sum to wrap. -/
theorem jpV0AddsWithoutMask : Obligations.JpV0AddsWithoutMask :=
  fun nnn s => ⟨decodeWord_encode (.jpV0 nnn), _, rfl, zextByte_add_zextAddr_toNat (s.getV 0) nnn, onlyPc_setPc _⟩

/-- Settles O39: each of the four ends in `skipIf` on its own condition, and op nibbles 5 and 9 refuse every n but 0. -/
theorem registerSkipsFollowTheirCondition : Obligations.RegisterSkipsFollowTheirCondition := by
  intro x y nn s
  refine ⟨⟨decodeWord_encode (.seImm x nn), skipsWhen_of_skipIf decide_eq_true_iff rfl⟩,
    ⟨decodeWord_encode (.sneImm x nn), skipsWhen_of_skipIf decide_eq_true_iff rfl⟩,
    ⟨decodeWord_encode (.seReg x y), skipsWhen_of_skipIf decide_eq_true_iff rfl⟩,
    ⟨decodeWord_encode (.sneReg x y), skipsWhen_of_skipIf decide_eq_true_iff rfl⟩, fun n hn => ⟨?_, ?_⟩⟩
  · simpa [decodeWord_eq_none_iff] using hn
  · simpa [decodeWord_eq_none_iff] using hn

/-- Settles O34: a RET with an entry held resumes at the last one and uncounts it; with none held it takes its fault. -/
theorem retPopsTheReturnAddress : Obligations.RetPopsTheReturnAddress := by
  refine ⟨decodeWord_encode .ret, fun s => ⟨fun j hj => ?_, fun h0 => ?_⟩⟩
  · rcases execRet_cases s with ⟨_, e⟩ | ⟨h0, _⟩
    · refine e.trans ?_
      simp [hj, Fin.ext_iff]
    · simp [h0] at hj
  · rcases execRet_cases s with ⟨hpos, _⟩ | ⟨_, e⟩
    · simp [h0] at hpos
    · exact e

/-- Settles O35: PC takes the address field, which 16 bits hold. -/
theorem jpSetsPc : Obligations.JpSetsPc :=
  fun nnn _ => ⟨decodeWord_encode (.jp nnn), _, rfl, zextAddr_toNat nnn, onlyPc_setPc _⟩
end

section
/-! What a register instruction does (42_arithmetic.md R71 to R81): a result goes to V[x], a flag to VF where x is another register,
and nothing else differs but PC. -/

namespace Sys2Proof.Machine

open State

variable {i : Instr} {s : State} {x : Nibble} {u : Byte} {r : Nat}

/-- An instruction that ends in `writeReg` sets V[x] to the value it writes there. -/
theorem setsReg_of_writeReg (hr : u.toNat = r) (h : exec i s = .next (s.writeReg x u)) : setsReg i s x r := by
  refine ⟨s.writeReg x u, h, ?_, fun z hz => ?_, rfl, rfl, sameMemory_of_mem rfl rfl⟩
  · rwa [getV_writeReg, if_pos rfl]
  · rw [getV_writeReg, if_neg (mt List.mem_singleton.2 hz)]

/-- An instruction that ends in `writeRegFlag` sets V[x] and, where x is not F, VF by the condition its Bool stands for (R15). -/
theorem setsRegAndFlag_of_writeRegFlag {b : Bool} {f : Prop} (hr : u.toNat = r) (hb : b = true ↔ f)
    (h : exec i s = .next (s.writeRegFlag x u b)) : setsRegAndFlag i s x r f := by
  refine ⟨s.writeRegFlag x u b, h, ?_, fun hx => ?_, fun z hz => ?_, rfl, rfl, sameMemory_of_mem rfl rfl⟩
  · rwa [getV_writeRegFlag, if_pos rfl]
  · have hflag : (s.writeRegFlag x u b).getV 0xF = if b then 1 else 0 := by
      rw [getV_writeRegFlag, if_neg hx.symm, if_pos rfl]
    exact ⟨fun hf => hflag.trans (if_pos (hb.2 hf)), fun hf => hflag.trans (if_neg (mt hb.1 hf))⟩
  · obtain ⟨hzx, hzF⟩ : z ≠ x ∧ z ≠ 0xF := by simpa using hz
    rw [getV_writeRegFlag, if_neg hzx, if_neg hzF]

/-! ## Results and flags as numbers -/

/-- The difference modulo 256, written without a truncated subtraction. -/
theorem byte_sub_toNat (a b : Byte) : (a - b).toNat = (a.toNat + 256 - b.toNat) % 256 := by
  have hb : b.toNat < 256 := b.isLt
  rw [BitVec.toNat_sub']
  omega

theorem byte_shiftRight_one_toNat (a : Byte) : (a >>> 1).toNat = a.toNat / 2 := by
  rw [BitVec.toNat_ushiftRight, Nat.shiftRight_one]

theorem byte_shiftLeft_one_toNat (a : Byte) : (a <<< 1).toNat = a.toNat * 2 % 256 := by
  rw [BitVec.toNat_shiftLeft, Nat.shiftLeft_eq, pow_one]

/-- The low bit of a byte is its parity (R79). -/
theorem lsbFlag_iff (a : Byte) : lsbFlag a = true ↔ a.toNat % 2 = 1 := by
  simp [lsbFlag, BitVec.getLsbD, Nat.testBit_zero]

/-- The high bit of a byte is its half of the range (R81). -/
theorem msbFlag_iff (a : Byte) : msbFlag a = true ↔ a.toNat / 128 = 1 := by
  have ha : a.toNat < 256 := a.isLt
  have hbit : msbFlag a = decide (a.toNat / 128 % 2 = 1) := Nat.testBit_eq_decide_div_mod_eq
  rw [hbit, decide_eq_true_iff]
  omega

end Sys2Proof.Machine
end

section
/-! The statements about register arithmetic and logic (42_arithmetic.md). -/

open Sys2Proof Sys2Proof.Machine

/-- Settles O40: both end in `writeReg`, and a sum of bytes wraps modulo 256. -/
theorem immediateLoadAndAdd : Obligations.ImmediateLoadAndAdd :=
  fun x nn s => ⟨⟨decodeWord_encode (.ldImm x nn), setsReg_of_writeReg rfl rfl⟩,
    decodeWord_encode (.addImm x nn), setsReg_of_writeReg (BitVec.toNat_add (s.getV x) nn) rfl⟩

/-- Settles O41: the four end in `writeReg`, and the bitwise operations are the ones on numbers. -/
theorem copyAndLogic : Obligations.CopyAndLogic := by
  intro x y s
  exact ⟨⟨decodeWord_encode (.ldReg x y), setsReg_of_writeReg rfl rfl⟩,
    ⟨decodeWord_encode (.or x y), setsReg_of_writeReg (BitVec.toNat_or (s.getV x) (s.getV y)) rfl⟩,
    ⟨decodeWord_encode (.and x y), setsReg_of_writeReg (BitVec.toNat_and (s.getV x) (s.getV y)) rfl⟩,
    ⟨decodeWord_encode (.xor x y), setsReg_of_writeReg (BitVec.toNat_xor (s.getV x) (s.getV y)) rfl⟩⟩

/-- Settles O42: the sum wraps modulo 256 and the carry is taken from the unwrapped one. -/
theorem addRegSetsSumAndCarry : Obligations.AddRegSetsSumAndCarry :=
  fun x y s => ⟨decodeWord_encode (.addReg x y),
    setsRegAndFlag_of_writeRegFlag (BitVec.toNat_add (s.getV x) (s.getV y)) decide_eq_true_iff rfl⟩

/-- Settles O43: V[x] is the minuend of the difference and the greater side of the comparison. -/
theorem subSetsDifferenceAndGreater : Obligations.SubSetsDifferenceAndGreater :=
  fun x y s => ⟨decodeWord_encode (.sub x y),
    setsRegAndFlag_of_writeRegFlag (byte_sub_toNat (s.getV x) (s.getV y)) decide_eq_true_iff rfl⟩

/-- Settles O44: the shift halves V[x] and the flag is its low bit; y is in the word alone. -/
theorem shrHalvesAndKeepsTheLowBit : Obligations.ShrHalvesAndKeepsTheLowBit :=
  fun x y s => ⟨decodeWord_encode (.shr x y),
    setsRegAndFlag_of_writeRegFlag (byte_shiftRight_one_toNat (s.getV x)) (lsbFlag_iff (s.getV x)) rfl⟩

/-- Settles O45: SUB's difference and comparison with V[y] for V[x] and V[x] for V[y]. -/
theorem subnSetsReversedDifferenceAndGreater : Obligations.SubnSetsReversedDifferenceAndGreater :=
  fun x y s => ⟨decodeWord_encode (.subn x y),
    setsRegAndFlag_of_writeRegFlag (byte_sub_toNat (s.getV y) (s.getV x)) decide_eq_true_iff rfl⟩

/-- Settles O46: the shift doubles V[x] modulo 256 and the flag is its high bit; y is in the word alone. -/
theorem shlDoublesAndKeepsTheHighBit : Obligations.ShlDoublesAndKeepsTheHighBit :=
  fun x y s => ⟨decodeWord_encode (.shl x y),
    setsRegAndFlag_of_writeRegFlag (byte_shiftLeft_one_toNat (s.getV x)) (msbFlag_iff (s.getV x)) rfl⟩
end

section
/-! What the instructions on I and memory do (43_index_memory.md R82 to R87): the value each leaves in I, the two ways a memory operand
at I can go, and what stands in memory and in V once the bytes are moved. -/

namespace Sys2Proof.Machine

open State

/-! ## Values of I -/

/-- The sum of FX1E wraps at 16 bits (R83). -/
theorem add_zextByte_toNat (i : Word) (u : Byte) : (i + zextByte u).toNat = (i.toNat + u.toNat) % 65536 := by
  simp only [BitVec.toNat_add, zextByte, BitVec.toNat_ofNat]
  omega

/-- The offset of a glyph fits in 16 bits for every byte (R84). -/
theorem glyphOffset_toNat (u : Byte) : (BitVec.ofNat 16 (u.toNat * 5)).toNat = u.toNat * 5 := by
  simp only [BitVec.toNat_ofNat]
  omega

variable {s : State}

/-- I does not wrap past an operand that lies in memory (R86, R87). -/
theorem indexPast_index_toNat {x : Nibble} (h : s.index.toNat + x.toNat < s.memSize) :
    (indexPast x s).index.toNat = s.index.toNat + x.toNat + 1 := by
  have := (memSize_bounds s).2
  simp only [indexPast, setIndex_index, BitVec.toNat_add, BitVec.toNat_ofNat]
  omega

/-! ## A memory operand at I -/

variable {i : Instr} {len : Nat} {act : State}

/-- With its operand in memory an instruction has its effect (20_memory.md R33). -/
theorem withOperandAtI_in_memory (h : s.index.toNat + len ≤ s.memSize) : s.withOperandAtI i len act = act := by
  rcases withOperandAtI_cases s i len act with ⟨_, e⟩ | ⟨hend, _, _⟩
  · exact e
  · omega

/-- With a byte of its operand past memory an instruction takes MemoryOverflow and only RUN changes (20_memory.md R33, R97). -/
theorem withOperandAtI_past_memory (hlen : 0 < len) (hend : s.memSize < s.index.toNat + len) :
    s.withOperandAtI i len act =
      haltedBy s i .memoryOverflow (some (BitVec.ofNat 16 (max s.index.toNat s.memSize))) := by
  rcases withOperandAtI_cases s i len act with ⟨h, _⟩ | ⟨_, _, e⟩
  · omega
  · exact e

/-! ## The bytes moved -/

/-- The bytes of FX33 are the decimal digits of V[x] as numbers (R85). -/
theorem byteAt_setBytes_bcdDigits (hs : s.memOk) {a : Nat} (ha : a + 2 < s.memSize) (u : Byte) :
    ((s.setBytes a (bcdDigits u)).byteAt a).toNat = u.toNat / 100 ∧
    ((s.setBytes a (bcdDigits u)).byteAt (a + 1)).toNat = u.toNat / 10 % 10 ∧
    ((s.setBytes a (bcdDigits u)).byteAt (a + 2)).toNat = u.toNat % 10 := by
  have hu := u.isLt
  have hget := fun k hk => byteAt_setBytes_get s hs a k (bcdDigits u) hk ha
  have hundreds := hget 0 (Nat.succ_pos 2)
  have tens := hget 1 (by decide : 1 < 3)
  have units := hget 2 (by decide : 2 < 3)
  rw [Nat.add_zero] at hundreds
  rw [hundreds, tens, units]
  simp only [bcdDigits, List.getElem_cons_zero, List.getElem_cons_succ, BitVec.toNat_ofNat]
  omega

/-- The bytes of FX55 are V0 to V[x] (R86). -/
theorem byteAt_setBytes_regsUpTo (hs : s.memOk) {a : Nat} {x z : Nibble} (ha : a + x.toNat < s.memSize)
    (hz : z.toNat ≤ x.toNat) : (s.setBytes a (s.regsUpTo x)).byteAt (a + z.toNat) = s.getV z := by
  have hk : z.toNat < (s.regsUpTo x).length := by rw [length_regsUpTo]; omega
  rw [byteAt_setBytes_get s hs a z.toNat _ hk (by rw [length_regsUpTo]; omega), regsUpTo_get]

/-- Bytes stored from an address upward change no byte outside them. -/
theorem sameMemoryOutside_setBytes (s : State) (a : Nat) (us : List Byte) {len : Nat} (h : us.length = len) :
    sameMemoryOutside a len s (s.setBytes a us) :=
  fun b hb => byteAt_setBytes_other s a b us (by omega)

/-- Registers V0 to V[x] after FX65 hold the bytes of memory (R87). -/
theorem getV_loadRegs_bytesAt {a len : Nat} {z : Nibble} (hz : z.toNat < len) :
    State.getV { s with v := loadRegs s.v 0 (s.bytesAt a len) } z = s.byteAt (a + z.toNat) := by
  have hk : z.toNat < (s.bytesAt a len).length := by rwa [length_bytesAt]
  have e := loadRegs_get s.v 0 (s.bytesAt a len) z.toNat hk (by omega)
  simp only [Nat.zero_add] at e
  exact e.trans (bytesAt_get s a len z.toNat hk)

/-- A register past the bytes loaded is kept (R87). -/
theorem getV_loadRegs_above {us : List Byte} {z : Nibble} (hz : us.length ≤ z.toNat) :
    State.getV { s with v := loadRegs s.v 0 us } z = s.getV z :=
  loadRegs_other s.v 0 us z.toNat z.isLt (.inr (by omega))

end Sys2Proof.Machine
end

section
/-! The statements about the index register and memory transfer (43_index_memory.md). -/

open Sys2Proof Sys2Proof.Machine

/-- Settles O48: V[x] is read before VF is written, and the flag is of the sum before it wraps. -/
theorem addIVxAddsAndFlagsPast0xFFF : Obligations.AddIVxAddsAndFlagsPast0xFFF := by
  intro x s
  have hflag : indexFlag s.index (s.getV x) = true ↔ 0xFFF < s.index.toNat + (s.getV x).toNat := decide_eq_true_iff
  refine ⟨decodeWord_encode (.addIVx x), _, rfl, add_zextByte_toNat s.index (s.getV x), fun h => ?_, fun h => ?_,
    fun z hz => ?_, rfl, rfl, sameMemory_of_mem rfl rfl⟩
  · simp [State.getV_setFlag, hflag.2 h]
  · simp [State.getV_setFlag, mt hflag.1 (Nat.not_lt.2 h)]
  · exact (State.getV_setFlag _ z _).trans (if_neg (mt List.mem_singleton.2 hz))

/-- Settles O50: the operand at I exists or it does not, and where it does the three digits stand in it. -/
theorem ldBVxStoresTheDecimalDigits : Obligations.LdBVxStoresTheDecimalDigits := by
  intro x s
  refine ⟨decodeWord_encode (.ldBVx x), fun hin => ?_, fun hend => ?_⟩
  · exact ⟨_, congrArg Host.Outcome.next (withOperandAtI_in_memory hin),
      fun hs => byteAt_setBytes_bcdDigits hs hin (s.getV x),
      sameMemoryOutside_setBytes s s.index.toNat (bcdDigits (s.getV x)) rfl, rfl⟩
  · exact congrArg Host.Outcome.next (withOperandAtI_past_memory (by decide) (by omega))

/-- Settles O51: the operand at I exists or it does not, and where it does V0 to V[x] stand in it and I is past it. -/
theorem ldMemVxStoresTheRegisters : Obligations.LdMemVxStoresTheRegisters := by
  intro x s
  refine ⟨decodeWord_encode (.ldMemVx x), fun hin => ?_, fun hend => ?_⟩
  · exact ⟨_, congrArg Host.Outcome.next (withOperandAtI_in_memory hin),
      fun hs z hz => byteAt_setBytes_regsUpTo hs hin hz,
      sameMemoryOutside_setBytes s s.index.toNat (s.regsUpTo x) (State.length_regsUpTo s x),
      indexPast_index_toNat hin, rfl, rfl⟩
  · exact congrArg Host.Outcome.next (withOperandAtI_past_memory (Nat.succ_pos _) (by omega))

/-- Settles O52: the operand at I exists or it does not, and where it does its bytes stand in V0 to V[x] and I is past it. -/
theorem ldVxMemLoadsTheRegisters : Obligations.LdVxMemLoadsTheRegisters := by
  intro x s
  refine ⟨decodeWord_encode (.ldVxMem x), fun hin => ?_, fun hend => ?_⟩
  · exact ⟨_, congrArg Host.Outcome.next (withOperandAtI_in_memory hin),
      fun z hz => getV_loadRegs_bytesAt (Nat.lt_succ_of_le hz),
      fun z hz => getV_loadRegs_above (by rw [State.length_bytesAt]; exact hz),
      indexPast_index_toNat hin, rfl, rfl, sameMemory_of_mem rfl rfl⟩
  · exact congrArg Host.Outcome.next (withOperandAtI_past_memory (Nat.succ_pos _) (by omega))

/-- Settles O47: I takes the address field, which 16 bits hold. -/
theorem ldISetsTheIndex : Obligations.LdISetsTheIndex :=
  fun nnn _ => ⟨decodeWord_encode (.ldI nnn), _, rfl, zextAddr_toNat nnn, rfl, rfl, sameMemory_of_mem rfl rfl⟩

/-- Settles O49: five times a byte does not wrap at 16 bits. -/
theorem ldFVxPointsAtTheGlyph : Obligations.LdFVxPointsAtTheGlyph :=
  fun x s => ⟨decodeWord_encode (.ldFVx x), _, rfl, glyphOffset_toNat (s.getV x), rfl, rfl, sameMemory_of_mem rfl rfl⟩
end

section
/-! What a timer or random instruction reads and writes (44_timers_random.md R88 to R91): the register FX18 reads under each reading of
its operand, and V after the one destination write of a draw. -/

namespace Sys2Proof

/-- The n field of a word given by its low byte is that byte's low nibble (30_encoding.md R49). -/
@[simp] theorem nField_formatXB (op x : Nibble) (nn : Byte) : nField (formatXB op x nn) = nn.extractLsb' 0 4 := by
  apply BitVec.eq_of_toNat_eq
  simp only [nField, formatXB, BitVec.extractLsb'_toNat, BitVec.toNat_ofNat, Nat.shiftRight_eq_div_pow]
  omega

namespace Machine

open State

variable {s : State} {x : Nibble}

/-- Under n_field FX18 reads V8, whatever x is: 8 is the low nibble of its fixed low byte 0x18 (R91). -/
theorem soundOperand_of_nField (h : soundSource s.params = .nField) : s.soundOperand x = s.getV 8 := by
  have hn : nField (encode (.ldStVx x)) = 8 := nField_formatXB 0xF x 0x18
  rw [soundOperand, h]
  exact congrArg s.getV hn

/-- Under x_field FX18 reads V[x] (R91). -/
theorem soundOperand_of_xField (h : soundSource s.params = .xField) : s.soundOperand x = s.getV x := by
  rw [soundOperand, h]

/-- A sequential destination write leaves every other register of V alone. -/
theorem sameRegsBut_writeReg (s : State) (x : Nibble) (u : Byte) : sameRegsBut [x] s (s.writeReg x u) :=
  fun z hz => (getV_writeReg s x z u).trans (if_neg (mt List.mem_singleton.2 hz))

/-- FX18 puts the operand it selects into ST and completes (R91). -/
theorem exec_ldStVx {u : Byte} (h : s.soundOperand x = u) :
    exec (.ldStVx x) s = .next { s with st := u, pc := s.pc + 2 } := by
  subst h; rfl

end Machine
end Sys2Proof
end

section
/-! The statements about timers and random numbers (44_timers_random.md). -/

open Sys2Proof Sys2Proof.Machine

/-- Settles O53: the draw moves the counter alone, and its byte under the mask is the one destination write. -/
theorem rndMasksOneDraw : Obligations.RndMasksOneDraw := by
  intro x nn s
  have hx : (s.drawn.writeReg x (s.nextRandom &&& nn)).getV x = s.nextRandom &&& nn :=
    (State.getV_writeReg ..).trans (if_pos rfl)
  have hother : sameRegsBut [x] s (s.drawn.writeReg x (s.nextRandom &&& nn)) := sameRegsBut_writeReg s.drawn x _
  exact ⟨_, rfl, hx, hother, rfl, rfl, rfl, sameMemory_of_mem rfl rfl⟩

/-- Settles O54: it ends in `writeReg` with the delay timer's value. -/
theorem ldVxDtReadsTheDelayTimer : Obligations.LdVxDtReadsTheDelayTimer :=
  fun x _ => ⟨decodeWord_encode (.ldVxDt x), setsReg_of_writeReg rfl rfl⟩

/-- Settles O56: what goes into ST is the operand, and each reading names the register it is read from. -/
theorem ldStVxSetsTheSoundTimer : Obligations.LdStVxSetsTheSoundTimer :=
  fun x _ => ⟨decodeWord_encode (.ldStVx x), fun hn => exec_ldStVx (soundOperand_of_nField hn),
    fun hx => exec_ldStVx (soundOperand_of_xField hx)⟩

/-- Settles O55: DT takes V[x] and PC moves past the instruction, by the instruction's own arm of `exec`. -/
theorem ldDtVxSetsTheDelayTimer : Obligations.LdDtVxSetsTheDelayTimer :=
  fun x _ => ⟨decodeWord_encode (.ldDtVx x), rfl⟩
end

section
/-! What the keypad instructions read and write (45_keypad.md R92 to R94): the input mux for each index and policy, a key skip by the
mux's answer, and FX0A in each state of the await-key machine. -/

namespace Sys2Proof.Machine

open State

variable {s : State} {x : Nibble} {u : Byte} {k : Fin 16}

/-! ## The input mux -/

/-- An index below 16 reads its own latch entry (R92). -/
theorem keyAt_of_toNat_eq (hu : u.toNat = k.val) : s.keyAt u = some s.keys[k] := by
  rcases keyAt_cases s u with ⟨_, e⟩ | ⟨hge, _⟩ | ⟨hge, _⟩
  · simp [e, hu]
  · omega
  · omega

/-- Under not_pressed an index above 15 reads as not pressed (R92, R93). -/
theorem keyAt_of_notPressed (hu : 16 ≤ u.toNat) (hp : s.params.keyIndexPolicy = .notPressed) : s.keyAt u = some false := by
  rcases keyAt_cases s u with ⟨hlt, _⟩ | ⟨_, _, e⟩ | ⟨_, hf, _⟩
  · omega
  · exact e
  · exact nomatch hp.symm.trans hf

/-- Under fault an index above 15 has no answer (R92, R93). -/
theorem keyAt_of_fault (hu : 16 ≤ u.toNat) (hp : s.params.keyIndexPolicy = .fault) : s.keyAt u = none := by
  rcases keyAt_cases s u with ⟨hlt, _⟩ | ⟨_, hn, _⟩ | ⟨_, _, e⟩
  · omega
  · exact nomatch hp.symm.trans hn
  · exact e

/-! ## The key skips -/

variable {pressed : Bool} {c : Prop}

theorem skp_skipsWhen (hk : s.keyAt (s.getV x) = some pressed) (hc : pressed = true ↔ c) : skipsWhen (.skp x) s c :=
  skipsWhen_of_skipIf hc (by simp only [exec, execSkp, hk])

theorem sknp_skipsWhen (hk : s.keyAt (s.getV x) = some pressed) (hc : pressed = false ↔ c) : skipsWhen (.sknp x) s c :=
  skipsWhen_of_skipIf (b := !pressed) (by rwa [Bool.not_eq_true']) (by simp only [exec, execSknp, hk])

theorem exec_skp_of_no_key (hk : s.keyAt (s.getV x) = none) : exec (.skp x) s = .next
    (haltedBy s (.skp x) .keyIndexOutOfRange (some (BitVec.ofNat 16 (s.getV x).toNat))) := by
  simp only [exec, execSkp, hk]
  rfl

theorem exec_sknp_of_no_key (hk : s.keyAt (s.getV x) = none) : exec (.sknp x) s = .next
    (haltedBy s (.sknp x) .keyIndexOutOfRange (some (BitVec.ofNat 16 (s.getV x).toNat))) := by
  simp only [exec, execSknp, hk]
  rfl

/-! ## The await-key machine (R94) -/

theorem exec_ldVxK_idle_of_no_key (ha : s.await = .idle) (hl : s.lowestKey = none) : exec (.ldVxK x) s = .next s := by
  simp only [exec, execLdVxK, ha, hl]

/-- In level mode the wait resolves at once. AWAIT is Idle already, so the resolution writes V[x] and PC alone. -/
theorem exec_ldVxK_idle_level (ha : s.await = .idle) (hl : s.lowestKey = some k) (hm : s.params.awaitKeyMode = .level) :
    exec (.ldVxK x) s = .next (s.writeReg x (BitVec.ofNat 8 k.val)) := by
  have hidle : s.setAwait .idle = s := by rw [setAwait, ← ha]
  simp only [exec, execLdVxK, ha, hl, hm, resolveKey, hidle]

theorem exec_ldVxK_idle_release (ha : s.await = .idle) (hl : s.lowestKey = some k) (hm : s.params.awaitKeyMode = .release) :
    exec (.ldVxK x) s = .next (s.setAwait (.keyObserved k)) := by
  simp only [exec, execLdVxK, ha, hl, hm]

theorem exec_ldVxK_of_held (ha : s.await = .keyObserved k) (hk : s.keys[k] = true) : exec (.ldVxK x) s = .next s := by
  simp only [exec, execLdVxK, ha]
  exact if_pos hk

theorem exec_ldVxK_of_released (ha : s.await = .keyObserved k) (hk : s.keys[k] = false) :
    exec (.ldVxK x) s = .next (s.resolveKey x k) := by
  simp only [exec, execLdVxK, ha]
  exact if_neg (by simp [hk])

/-- A key index fits in a byte. -/
theorem keyIndex_toNat (k : Fin 16) : (BitVec.ofNat 8 k.val).toNat = k.val := by
  rw [BitVec.toNat_ofNat]
  omega

end Sys2Proof.Machine
end

section
/-! The statements about the keypad instructions (45_keypad.md). -/

open Sys2Proof Sys2Proof.Machine

/-- Settles O57: both instructions go by the input mux's answer, which is the latch entry below 16 and the policy's from 16 on. -/
theorem keySkipsConsultTheLatch : Obligations.KeySkipsConsultTheLatch := by
  intro x s
  refine ⟨decodeWord_encode (.skp x), decodeWord_encode (.sknp x), fun k hk => ?_, fun hge hp => ?_, fun hge hp => ?_⟩
  · have hkey := keyAt_of_toNat_eq (s := s) hk
    exact ⟨skp_skipsWhen hkey Iff.rfl, sknp_skipsWhen hkey Iff.rfl⟩
  · have hkey := keyAt_of_notPressed hge hp
    exact ⟨skp_skipsWhen hkey (by simp), sknp_skipsWhen hkey (by simp)⟩
  · have hkey := keyAt_of_fault hge hp
    exact ⟨exec_skp_of_no_key hkey, exec_sknp_of_no_key hkey⟩

/-- Settles O58: one equation per state of the await-key machine, with lowest() for the key an idle machine finds. -/
theorem awaitKeyStateMachine : Obligations.AwaitKeyStateMachine := by
  intro x s
  refine ⟨decodeWord_encode (.ldVxK x), fun ha hnone => ?_, fun k ha hk hlow => ?_, fun k ha hk => ?_, fun k ha hk => ?_⟩
  · exact exec_ldVxK_idle_of_no_key ha ((lowestKey_none s).2 hnone)
  · have hl : s.lowestKey = some k := (lowestKey_some s k).2 ⟨hk, hlow⟩
    exact ⟨fun hm => setsReg_of_writeReg (keyIndex_toNat k) (exec_ldVxK_idle_level ha hl hm),
      fun hm => exec_ldVxK_idle_release ha hl hm⟩
  · exact exec_ldVxK_of_held ha hk
  · have hx : (s.resolveKey x k).getV x = BitVec.ofNat 8 k.val := (State.getV_writeReg ..).trans (if_pos rfl)
    have hother : sameRegsBut [x] s (s.resolveKey x k) := sameRegsBut_writeReg (s.setAwait .idle) x _
    exact ⟨_, exec_ldVxK_of_released ha hk, by rw [hx, keyIndex_toNat], hother, rfl, rfl, rfl, sameMemory_of_mem rfl rfl⟩
end

section
/-! What is pending from the host is read by no instruction (60_exceptions.md R106, R109; log entry 6): each does the same after it is
replaced, so a frame's Step is the Step of the spec. -/

namespace Sys2Proof.Machine

open State

/-- What is pending replaced, and nothing else. -/
def withHost (l : List HostOp) (s : State) : State := { s with host := l }

variable (l : List HostOp) (s : State)

theorem withHost_pc : (withHost l s).pc = s.pc := rfl

theorem getV_withHost (x : Nibble) : (withHost l s).getV x = s.getV x := rfl

theorem keyAt_withHost (u : Byte) : (withHost l s).keyAt u = s.keyAt u := rfl

theorem withOperandAtI_withHost (i : Instr) (len : Nat) {act act' : State} (h : act' = withHost l act) :
    (withHost l s).withOperandAtI i len act' = withHost l (s.withOperandAtI i len act) := by
  have e : (withHost l s).overflowAt (withHost l s).index.toNat len = s.overflowAt s.index.toNat len := rfl
  simp only [withOperandAtI, e, h]
  cases s.overflowAt s.index.toNat len <;> rfl

theorem bytesAt_withHost (a len : Nat) : (withHost l s).bytesAt a len = s.bytesAt a len :=
  bytesAt_congr (by rfl) (by rfl) a len

theorem drawAtI_withHost (x y n : Nibble) : drawAtI x y n (withHost l s) = withHost l (drawAtI x y n s) := by
  rw [drawAtI, bytesAt_withHost]
  rfl

theorem pop_withHost : (withHost l s).pop = s.pop.map (Prod.map id (withHost l)) := by
  unfold pop
  by_cases hsp : 0 < s.sp.val
  · rw [dif_pos hsp, dif_pos (show 0 < (withHost l s).sp.val from hsp)]
    rfl
  · rw [dif_neg hsp, dif_neg (show ¬ 0 < (withHost l s).sp.val from hsp)]
    rfl

theorem push_withHost (ret : Word) : (withHost l s).push ret = (s.push ret).map (withHost l) := by
  unfold push
  by_cases hsp : s.sp.val < 16
  · rw [dif_pos hsp, dif_pos (show (withHost l s).sp.val < 16 from hsp)]
    rfl
  · rw [dif_neg hsp, dif_neg (show ¬ (withHost l s).sp.val < 16 from hsp)]
    rfl

/-- In each of its cases FX0A does the same: it reads AWAIT, KEYS and its mode. -/
theorem exec_ldVxK_withHost (x : Nibble) : exec (.ldVxK x) (withHost l s) = mapNext (withHost l) (exec (.ldVxK x) s) := by
  cases ha : s.await with
  | idle =>
    cases hl : s.lowestKey with
    | none =>
      rw [exec_ldVxK_idle_of_no_key ha hl]
      exact exec_ldVxK_idle_of_no_key (s := withHost l s) ha hl
    | some k =>
      cases hm : s.params.awaitKeyMode with
      | level =>
        rw [exec_ldVxK_idle_level ha hl hm]
        exact exec_ldVxK_idle_level (s := withHost l s) ha hl hm
      | release =>
        rw [exec_ldVxK_idle_release ha hl hm]
        exact exec_ldVxK_idle_release (s := withHost l s) ha hl hm
  | keyObserved k =>
    cases hk : s.keys[k] with
    | true =>
      rw [exec_ldVxK_of_held ha hk]
      exact exec_ldVxK_of_held (s := withHost l s) ha hk
    | false =>
      rw [exec_ldVxK_of_released ha hk]
      exact exec_ldVxK_of_released (s := withHost l s) ha hk

/-- Every instruction does the same whatever is pending, and leaves it pending. -/
theorem exec_withHost (i : Instr) : exec i (withHost l s) = mapNext (withHost l) (exec i s) := by
  have op := withOperandAtI_withHost l s i
  cases i with
  | ret =>
    simp only [exec, execRet, pop_withHost]
    cases s.pop <;> rfl
  | call nnn =>
    simp only [exec, execCall, withHost_pc, push_withHost]
    cases s.push (s.pc + 2) <;> rfl
  | drw x y n => exact congrArg Host.Outcome.next (op _ (drawAtI_withHost l s x y n))
  | ldBVx x => exact congrArg Host.Outcome.next (op _ rfl)
  | ldMemVx x => exact congrArg Host.Outcome.next (op _ rfl)
  | ldVxMem x =>
    refine congrArg Host.Outcome.next (op _ ?_)
    rw [bytesAt_withHost]
    rfl
  | skp x =>
    simp only [exec, execSkp, getV_withHost, keyAt_withHost]
    cases s.keyAt (s.getV x) <;> rfl
  | sknp x =>
    simp only [exec, execSknp, getV_withHost, keyAt_withHost]
    cases s.keyAt (s.getV x) <;> rfl
  | ldVxK x => exact exec_ldVxK_withHost l s x
  | _ => rfl

/-- A Step does the same whatever is pending: neither RUN, nor the fetch, nor a fault, nor an instruction looks at it. -/
theorem stepInstr_withHost : stepInstr (withHost l s) = mapNext (withHost l) (stepInstr s) := by
  have hfetch : (withHost l s).fetch = s.fetch := fetch_congr rfl rfl rfl
  rcases stepInstr_cases s with ⟨r, hr, e⟩ | ⟨hr, bad, hf, e⟩ | ⟨hr, w, hf, hd, e⟩ | ⟨hr, w, i, hf, hd, e⟩ <;> rw [e]
  · exact stepInstr_of_halted hr
  · exact stepInstr_of_fetch_error hr (hfetch.trans hf)
  · exact stepInstr_of_invalid hr (hfetch.trans hf) hd
  · exact (stepInstr_of_decode (s := withHost l s) hr (hfetch.trans hf) hd).trans (exec_withHost l s i)

end Sys2Proof.Machine
end

section
/-! The burst and the frame of the spec, one Step at a time and on a halted machine (60_exceptions.md R98, R106, R107). -/

namespace Sys2Proof.Machine

variable {s t : State}

theorem run_succ_of_step {n : Nat} (h : step s = .next t) : core.run (n + 1) s = core.run n t := by
  have e : core.step s = .next t := h
  simp only [Host.Core.run, e]

theorem frame_succ_of_stepInstr {n : Nat} {k : Keypad} (h : stepInstr s = .next t) : frame (n + 1) k s = frame n k t := by
  simp only [frame, burst, h]

/-- A burst on a halted machine changes nothing. -/
theorem burst_of_halted {r : FaultRecord} (h : s.run = .halted r) (n : Nat) : burst n s = .next s := by
  induction n with
  | zero => rfl
  | succ n ih => simp only [burst, stepInstr_of_halted h, ih]

/-- A frame on a halted machine latches the keys alone. -/
theorem frame_of_halted {r : FaultRecord} (h : s.run = .halted r) (n : Nat) (k : Keypad) :
    frame n k s = .next { s with keys := k } := by
  simp only [frame, burst_of_halted h, endFrame_eq, State.tick_halted h]

/-- A Step never makes a halted machine run again. -/
theorem stepInstr_keeps_halted {r : FaultRecord} (hs : s.run = .halted r) (h : stepInstr s = .next t) : t.run = .halted r := by
  cases (stepInstr_of_halted hs).symm.trans h
  exact hs

end Sys2Proof.Machine
end

section
/-! The statements about faults, frames and the host's operations (60_exceptions.md). -/

open Sys2Proof Sys2Proof.Machine

/-- Settles O9: the fetch, the decode and a faulting instruction all halt by `raise`, and an instruction that completes keeps RUN. -/
theorem faultingStepChangesOnlyRun : Obligations.FaultingStepChangesOnlyRun := by
  intro s t r hrun h ht
  rcases stepInstr_cases s with ⟨_, hr, _⟩ | ⟨_, _, _, e⟩ | ⟨_, _, _, _, e⟩ | ⟨_, _, i, _, _, e⟩
  · exact nomatch hrun.symm.trans hr
  · cases e.symm.trans h
    cases ht
    exact ⟨rfl, rfl⟩
  · cases e.symm.trans h
    cases ht
    exact ⟨rfl, rfl⟩
  · rcases exec_faults_or_completes (e.symm.trans h) with ⟨_, f, info, rfl⟩ | hc
    · cases ht
      exact ⟨rfl, rfl⟩
    · exact nomatch ht.symm.trans ((completesAs_run hc).trans hrun)

/-- Settles O28, by induction on the number of Steps: each step of the machine is the spec's Step, with what is pending kept apart. -/
theorem pendingFrameRunsAsTheSpecsFrame : Obligations.PendingFrameRunsAsTheSpecsFrame := by
  intro n keys s rest
  induction n generalizing s with
  | zero => rfl
  | succ n ih =>
    obtain ⟨t, ht⟩ := stepInstr_answers_next s
    have hhost : ∀ l, stepInstr (withHost l s) = .next (withHost l t) := fun l => by rw [stepInstr_withHost, ht, mapNext]
    have hrun : core.run (n + 1 + 1) { s with host := .frame (n + 1) keys :: rest } =
        core.run (n + 1) { t with host := .frame n keys :: rest } := run_succ_of_step (hhost (.frame n keys :: rest))
    have hframe : frame (n + 1) keys { s with host := rest } = frame n keys { t with host := rest } :=
      frame_succ_of_stepInstr (hhost rest)
    exact hrun.trans ((ih t).trans hframe.symm)

/-- Settles O29: of the four things a step can be, a frame's end and the two kinds of Step leave a halted machine halted. -/
theorem haltedMachineWaitsForInitialize : Obligations.HaltedMachineWaitsForInitialize := by
  intro s r hs
  refine ⟨stepInstr_of_halted hs, State.tick_halted hs, fun k => ⟨rfl, rfl⟩, frame_of_halted hs, fun t h ht => ?_⟩
  rcases step_cases s with ⟨_, e⟩ | ⟨n, keys, rest, _, e⟩ | ⟨keys, rest, _, e⟩ | ⟨rom, rest, hhost, _⟩
  · exact nomatch ht.symm.trans (stepInstr_keeps_halted hs (e.symm.trans h))
  · exact nomatch ht.symm.trans (stepInstr_keeps_halted (s := withHost (.frame n keys :: rest) s) hs (e.symm.trans h))
  · cases e.symm.trans h
    exact nomatch ht.symm.trans ((State.endFrame_run keys _).trans hs)
  · exact ⟨rom, rest, hhost⟩

/-- Settles O25: the step by its definition, and Initialize's fields that are not the block's to reset. -/
theorem pendingInitializeIsOneStep : Obligations.PendingInitializeIsOneStep :=
  fun _ _ _ => ⟨rfl, rfl, rfl, rfl⟩
end

section
/-! What Initialize leaves (70_reset_and_hazards.md R116, R117): RUN by whether the ROM fits, and the byte at every address inside and
outside the ROM's place. -/

namespace Sys2Proof.Machine

namespace State

/-! ## RUN -/

theorem runAfterLoad_fits {size : MemSize} {rom : List Byte} (h : rom.length ≤ size.toNat - Config.progBase) :
    runAfterLoad size rom = .running := if_pos (decide_eq_true h)

theorem runAfterLoad_too_long {size : MemSize} {rom : List Byte} (h : size.toNat - Config.progBase < rom.length) :
    runAfterLoad size rom = .halted ⟨.memoryOverflow, 0x200, none, some (BitVec.ofNat 16 size.toNat)⟩ :=
  if_neg (by simpa [romFits] using h)

/-! ## Memory -/

variable {s : State} {rom : List Byte}

/-- A ROM that does not fit is not copied: every address reads as unlisted (R117). -/
theorem byteAt_initRom_too_long (h : s.memSize - 0x200 < rom.length) (a : Nat) :
    (initRom rom s).byteAt a = Memory.unlisted s.params.font a :=
  congrArg (Memory.read s.params.font · a) (memAfterLoad_too_long h)

/-- A ROM that fits stands unmodified from PROG_BASE (R116). -/
theorem byteAt_initRom_rom (h : rom.length ≤ s.memSize - 0x200) {k : Nat} (hk : k < rom.length) :
    (initRom rom s).byteAt (0x200 + k) = rom[k] := by
  have hsize := (memSize_bounds s).1
  calc (initRom rom s).byteAt (0x200 + k)
      = Memory.read s.params.font (Memory.writeList s.params.font 0x200 rom []) (0x200 + k) :=
        congrArg (Memory.read s.params.font · (0x200 + k)) (memAfterLoad_fits h)
    _ = rom[k] := Memory.read_writeList_get _ (size := s.memSize) rfl hk (by omega)

/-- Outside the ROM's place every address reads as unlisted, whether the ROM fits or not (R116, R117). -/
theorem byteAt_initRom_outside {a : Nat} (ha : a < 0x200 ∨ 0x200 + rom.length ≤ a) :
    (initRom rom s).byteAt a = Memory.unlisted s.params.font a := by
  rcases Nat.lt_or_ge (s.memSize - 0x200) rom.length with h | h
  · exact byteAt_initRom_too_long h a
  · calc (initRom rom s).byteAt a
        = Memory.read s.params.font (Memory.writeList s.params.font 0x200 rom []) a :=
          congrArg (Memory.read s.params.font · a) (memAfterLoad_fits h)
      _ = Memory.unlisted s.params.font a := Memory.read_writeList_other _ ha

/-! ## The other fields -/

theorem getV_initRom (x : Nibble) : (initRom rom s).getV x = 0 := Vector.getElem_replicate ..
theorem stack_initRom (j : Fin 16) : (initRom rom s).stack[j] = 0 := Vector.getElem_replicate ..
theorem keys_initRom (k : Fin 16) : (initRom rom s).keys[k] = false := Vector.getElem_replicate ..
theorem pixel_initRom (r c : Nat) : (initRom rom s).fb.pixel r c = false := Framebuffer.pixel_clear r c

end State

end Sys2Proof.Machine
end

section
/-! The statement about reset (70_reset_and_hazards.md). -/

open Sys2Proof Sys2Proof.Machine Sys2Proof.Machine.State

/-- Settles O24: font and zeros are what no cell lists, and a ROM that fits is the only thing written over them. -/
theorem initializeResetsAndLoads : Obligations.InitializeResetsAndLoads := by
  rintro s t rom rfl
  refine ⟨getV_initRom, rfl, rfl, rfl, stack_initRom, rfl, rfl, pixel_initRom, keys_initRom, rfl,
    fun d k => ?font, fun a hfont hbase => ?belowRom,
    fun hfits => ⟨runAfterLoad_fits hfits, fun k hk => byteAt_initRom_rom hfits hk, fun a hend => ?aboveRom⟩,
    fun hlong => ⟨runAfterLoad_too_long hlong, fun a hbase => ?noRom⟩⟩
  case font => rw [byteAt_initRom_outside (.inl (by omega)), unlisted_glyph]
  case belowRom => rw [byteAt_initRom_outside (.inl hbase), unlisted_above_font _ hfont]
  case aboveRom => rw [byteAt_initRom_outside (.inr hend), unlisted_above_font _ (by omega)]
  case noRom => rw [byteAt_initRom_too_long hlong, unlisted_above_font _ (by omega)]
end
